-- ==== Sys2Proof/Word.lean ====
section
/-! DEFINITION. The words of the machine: 64-bit register values and addresses, bytes, 32-bit instruction words. -/

namespace Sys2Proof

/-- A 64-bit register value or address: `bits(64)` (R20, R21, R23, R31). -/
abbrev Word := BitVec 64

/-- One byte, the addressable unit of memory (R31). -/
abbrev Byte := BitVec 8

/-- One instruction word; bit 0 is the least significant bit (R10, R60). -/
abbrev InstrWord := BitVec 32

end Sys2Proof
end

