-- ==== Sys2Proof/Config.lean ====
section
/-! DEFINITION. What an implementation fixes for a run: the vector length, the presence of SVE and of the tagging extension, and the constants of the encoding. -/

namespace Sys2Proof

/-- The element size of this encoding, in bits: `integer esize = 8` (R63). -/
abbrev esize : Nat := 8

/-- The number of registers of this encoding: `integer nreg = 4` (R63). -/
abbrev nreg : Nat := 4

/-- The bytes of one element: `mbytes = esize DIV 8` (R81). -/
abbrev mbytes : Nat := esize / 8

/-- The twenty access types the page enumerates (R16). It gives none of them a meaning; this model uses `normal` for the
instruction's reads and `ifetch` for the fetch (R31, R50). -/
inductive AccType where
  | normal | vec | stream | vecStream | atomic | atomicRW | ordered | orderedRW | orderedAtomic | orderedAtomicRW
  | limitedOrdered | unpriv | ifetch | ptw | nv2Register | dc | dcUnpriv | ic | dcZva | at
deriving DecidableEq, Repr

/-- The kinds `k` of `mem_fault(s, a) = some k` (R104): the platform's. The named ones are those R104 and R116 list, and
`platform code` is any other. `alignment` cannot arise on a data read (R42, R104): `FaultKind.canArise`. -/
inductive FaultKind where
  | translation | accessFlag | permission | addressSize | alignment | tagCheck | externalAbort | watchpoint
  | platform (code : Nat)
deriving DecidableEq, Repr

/-- The configuration of R34 that is a constant of the implementation. A `Config` stands in State, so that a statement
over all states quantifies over every value of these open parameters (D1, D2, D3; notes/assumptions/1.md). -/
structure Config where
  /-- The vector length in units of 128 bits, less one: `VL` is 128 to 2048 (D1, GK2). -/
  vq : Fin 16
  /-- `HaveSVE()` (R8). -/
  haveSve : Bool
  /-- `HaveMTEExt()` (R9). -/
  haveMte : Bool
deriving DecidableEq, Repr

/-- `VL`, the width in bits of a scalable vector register: a multiple of 128 from 128 to 2048 (R6, D1). -/
abbrev Config.VL (c : Config) : Nat := 128 * (c.vq.val + 1)

/-- `PL`, the width in bits of a scalable predicate register: `VL DIV 8` (R7, D1). -/
abbrev Config.PL (c : Config) : Nat := c.VL / 8

/-- `elements = VL DIV esize` (R85). -/
abbrev Config.elements (c : Config) : Nat := c.VL / esize

end Sys2Proof
end

