-- ==== Sys2Proof/Syntax.lean ====
section
/-! DEFINITION. The instruction as syntax, one constructor per row of the opcode table, and its assembly statement. -/

namespace Sys2Proof

/-- The instructions of spec/opcode_table.json. -/
inductive Instr where
  /-- `LD4B { Zt.B, Zt+1.B, Zt+2.B, Zt+3.B }, Pg/Z, [Xn or SP, Xm]` (R80). `zt`: first destination vector register; `pg`:
  governing predicate; `rn`: base register, 31 being `SP`; `rm`: index register, 31 being `UNDEFINED` (R61, R65, R69). -/
  | ld4b (zt : Fin 32) (pg : Fin 8) (rn : Fin 32) (rm : Fin 32)
deriving DecidableEq, Repr

/-- A register name that can be written in a scalar position of an assembly statement (R73, R74). -/
inductive ScalarName where
  /-- `X0`, `X1`, … -/
  | x (n : Nat)
  /-- `SP` -/
  | sp
  /-- `XZR`, which R74 names as having no encoding here. -/
  | xzr
deriving DecidableEq, Repr

/-- An assembly statement of the mnemonic `LD4B` in the template of R72: the register list in braces, the governing
predicate, and the two scalar names in brackets. -/
structure AsmStatement where
  /-- The numbers of the registers listed in braces. -/
  list : List Nat
  /-- The number of the predicate register. -/
  pg : Nat
  /-- The name in the place of `<Xn|SP>`. -/
  base : ScalarName
  /-- The name in the place of `<Xm>`. -/
  index : ScalarName
deriving DecidableEq, Repr

end Sys2Proof
end

