-- ==== Sys2Proof/WellFormed.lean ====
section
/-! DEFINITION. Which instructions and which assembly statements are well formed. -/

namespace Sys2Proof

/-- A valid instruction: `if Rm == '11111' then UNDEFINED` (R69); every value of the other fields is valid (R64, R65). -/
def Instr.wf : Instr → Bool
  | .ld4b _ _ _ rm => rm != 31

/-- The instruction is well formed. -/
abbrev Instr.WF (i : Instr) : Prop := i.wf = true

/-- The name may stand for `<Xn|SP>`: `X0` to `X30`, or `SP` (R74). -/
def ScalarName.isBase : ScalarName → Bool
  | .x n => decide (n < 31)
  | .sp => true
  | .xzr => false

/-- The name may stand for `<Xm>`: `X0` to `X30` (R74). -/
def ScalarName.isIndex : ScalarName → Bool
  | .x n => decide (n < 31)
  | .sp => false
  | .xzr => false

/-- The list names four registers `Z0` to `Z31` consecutive modulo 32 (R74). -/
def consecutiveList : List Nat → Bool
  | [a, b, c, d] => decide (a < 32) && b == (a + 1) % 32 && c == (a + 2) % 32 && d == (a + 3) % 32
  | _ => false

/-- A well-formed assembly statement (R74). -/
def AsmStatement.wf (a : AsmStatement) : Bool :=
  consecutiveList a.list && decide (a.pg < 8) && a.base.isBase && a.index.isIndex

end Sys2Proof
end

