-- ==== Sys2Proof/Decode.lean ====
section
/-! DEFINITION. The decoder, total on any word and on any bytes, and after it the encoder. -/

namespace Sys2Proof

/-- What the decoder answers (R70). -/
inductive Decoded where
  /-- A valid word. -/
  | instr (i : Instr)
  /-- A word that matches the pattern and is `UNDEFINED` (R68, R69). -/
  | undefined (w : InstrWord)
  /-- A word that does not match the pattern: outside the spec (R70). -/
  | outOfScope (w : InstrWord)
  /-- Fewer than four bytes: no instruction word at all (R60). -/
  | truncated
deriving DecidableEq, Repr

/-- The mask of R67: ones at bits 31:21 and 15:13. -/
def ld4bMask : InstrWord := 0xFFE0E000#32

/-- The match value of R67. -/
def ld4bMatch : InstrWord := 0xA460C000#32

/-- `(w AND 0xFFE0E000) == 0xA460C000` (R67). -/
def matchesLd4b (w : InstrWord) : Bool := (w &&& ld4bMask) == ld4bMatch

/-- `Zt = w[4:0]` (R63). -/
def fieldZt (w : InstrWord) : Fin 32 := (w.extractLsb' 0 5).toFin

/-- `Rn = w[9:5]` (R63). -/
def fieldRn (w : InstrWord) : Fin 32 := (w.extractLsb' 5 5).toFin

/-- `Pg = w[12:10]` (R63). -/
def fieldPg (w : InstrWord) : Fin 8 := (w.extractLsb' 10 3).toFin

/-- `Rm = w[20:16]` (R63). -/
def fieldRm (w : InstrWord) : Fin 32 := (w.extractLsb' 16 5).toFin

/-- Decode one word, in the page's order: the pattern (R67), `HaveSVE()` (R68), `Rm == '11111'` (R69), the fields (R63). -/
def decodeWord (haveSve : Bool) (w : InstrWord) : Decoded :=
  if matchesLd4b w then
    if !haveSve then .undefined w
    else if fieldRm w = 31 then .undefined w
    else .instr (.ld4b (fieldZt w) (fieldPg w) (fieldRn w) (fieldRm w))
  else .outOfScope w

/-- The word of four bytes in ascending address order, the first holding bits 7 to 0 (R41). -/
def wordOfBytes (b0 b1 b2 b3 : Byte) : InstrWord := b3 ++ b2 ++ b1 ++ b0

/-- The four bytes of a word in ascending address order (R41). -/
def bytesOfWord (w : InstrWord) : List Byte :=
  [w.extractLsb' 0 8, w.extractLsb' 8 8, w.extractLsb' 16 8, w.extractLsb' 24 8]

/-- Decode the instruction at the head of any bytes. -/
def decodeBytes (haveSve : Bool) : List Byte → Decoded
  | b0 :: b1 :: b2 :: b3 :: _ => decodeWord haveSve (wordOfBytes b0 b1 b2 b3)
  | _ => .truncated

/-- The word of an instruction, field by field in the order of the diagram: `10100100011 Rm 110 Pg Rn Zt` (R61). -/
def encode : Instr → InstrWord
  | .ld4b zt pg rn rm =>
    0b10100100011#11 ++ BitVec.ofFin (w := 5) rm ++ 0b110#3 ++ BitVec.ofFin (w := 3) pg ++ BitVec.ofFin (w := 5) rn
      ++ BitVec.ofFin (w := 5) zt

/-- The bytes of an instruction in ascending address order (R41). -/
def encodeBytes (i : Instr) : List Byte := bytesOfWord (encode i)

/-- The word of an opcode-table row of `nbits` bits: the bits above `nbits` are 0. -/
def tableWord (nbits w : Nat) : InstrWord := BitVec.ofNat 32 (w % 2 ^ nbits)

/-- The instruction the decoder reads from the bytes of a row of spec/opcode_table.json, on a machine that has SVE. -/
def decodeTableWord (nbits w : Nat) : Option Instr :=
  match decodeBytes true (bytesOfWord (tableWord nbits w)) with
  | .instr i => some i
  | .undefined _ => none
  | .outOfScope _ => none
  | .truncated => none

/-! ### Assembly statements (R72 to R75) -/

/-- The `Rn` field value of the name in the place of `<Xn|SP>` (R65). -/
def baseField : ScalarName → Option (Fin 32)
  | .x n => if h : n < 31 then some ⟨n, by omega⟩ else none
  | .sp => some 31
  | .xzr => none

/-- The `Rm` field value of the name in the place of `<Xm>` (R74). -/
def indexField : ScalarName → Option (Fin 32)
  | .x n => if h : n < 31 then some ⟨n, by omega⟩ else none
  | .sp => none
  | .xzr => none

/-- Assemble a statement: a statement that is not well formed has no encoding; of the list only the first register is
encoded (R74). -/
def assemble (a : AsmStatement) : Option Instr :=
  match a.wf, a.list, baseField a.base, indexField a.index with
  | true, z :: _, some rn, some rm => some (.ld4b (Fin.ofNat 32 z) (Fin.ofNat 8 a.pg) rn rm)
  | _, _, _, _ => none

/-- The name of a base field value (R65). -/
def baseName (rn : Fin 32) : ScalarName := if rn = 31 then .sp else .x rn.val

/-- Disassemble an instruction; a word whose `Rm` is 31 has no statement (R69, R74). -/
def disassemble : Instr → Option AsmStatement
  | .ld4b zt pg rn rm =>
    if rm = 31 then none
    else some
      { list := [zt.val, (zt.val + 1) % 32, (zt.val + 2) % 32, (zt.val + 3) % 32]
        pg := pg.val
        base := baseName rn
        index := .x rm.val }

/-- The spelling of a scalar name (R73). -/
def ScalarName.text : ScalarName → String
  | .x n => "X" ++ toString n
  | .sp => "SP"
  | .xzr => "XZR"

/-- The statement as text, in exactly the template's form (R72, R74). The two braces are written by their codes, 123
and 125. -/
def AsmStatement.text (a : AsmStatement) : String :=
  "LD4B " ++ String.singleton (Char.ofNat 123) ++ " " ++ ", ".intercalate (a.list.map fun z => "Z" ++ toString z ++ ".B")
    ++ " " ++ String.singleton (Char.ofNat 125) ++ ", P" ++ toString a.pg ++ "/Z, [" ++ a.base.text ++ ", " ++ a.index.text
    ++ "]"

end Sys2Proof
end

