-- ==== Sys2Proof/Machine/State.lean ====
section
/-! DEFINITION. The state of the machine as plain data, its value at reset, and the reasons a step can stop. -/

namespace Sys2Proof.Machine

/-- Memory as (address, byte) pairs: addresses strictly rising and below `2^64`, no entry equal to what an unlisted
address reads as (`Memory.wf`). -/
abbrev Memory := List Host.Cell

/-- When an entry of the platform's fault map applies, by the `tag_checked` indication of the execution (R32). -/
inductive TagCondition where
  | always | whenTagChecked | whenNotTagChecked
deriving DecidableEq, Repr

/-- A range of addresses, both ends included. -/
structure AddrRange where
  first : Word
  last : Word
deriving DecidableEq, Repr

/-- One entry of the open parameter `mem_fault` (R48, R104): reads of this access type in this range fault with this
kind. -/
structure FaultRange where
  range : AddrRange
  acc : AccType
  tag : TagCondition
  kind : FaultKind
deriving DecidableEq, Repr

/-- The state of R34. The fields `x` to `mem` are the spec's; `cfg` and the four after `mem` hold the spec's open
parameters as data, so that a statement over all states quantifies over them; `reads` is the model's own record of the
byte reads an execution made, which R46 and R107 speak of. -/
structure State where
  /-- `VL`, `have_sve`, `have_mte` (R34). -/
  cfg : Config
  /-- `X[0]` to `X[30]`, 64 bits each (R20). -/
  x : Vector Word 31
  /-- The stack pointer (R21). -/
  sp : Word
  /-- The address of the instruction being executed (R23). -/
  pc : Word
  /-- `P[0]` to `P[15]`, `PL` bits each (R24). -/
  p : Vector (BitVec cfg.PL) 16
  /-- `Z[0]` to `Z[31]`, `VL` bits each (R26). -/
  z : Vector (BitVec cfg.VL) 32
  /-- The one address space (R31). -/
  mem : Memory
  /-- The parameter `sve_enabled(s)` (R102). -/
  sveEnabled : Bool
  /-- The parameter `sp_check_enabled(s)` (R103). -/
  spCheckEnabled : Bool
  /-- The parameter `mem_fault(s, a)`; the first entry that applies decides (R104). -/
  faultMap : List FaultRange
  /-- The parameter `is_device(a)` (R46). -/
  deviceMap : List AddrRange
  /-- The addresses of the data bytes read so far, oldest first (R44, R46, R107). -/
  reads : List Word
deriving DecidableEq, Repr

/-- The state after reset. NO SOURCE GIVES ANY RESET VALUE (R33, R120): every value here is a DESIGN CHOICE of the model,
notes/assumptions/2.md, and is unsafe. -/
def State.reset : State :=
  { cfg := { vq := 0, haveSve := true, haveMte := false }
    x := Vector.replicate 31 0
    sp := 0
    pc := 0
    p := Vector.replicate 16 0
    z := Vector.replicate 32 0
    mem := []
    sveEnabled := true
    spCheckEnabled := true
    faultMap := []
    deviceMap := []
    reads := [] }

/-- The raises of R17. A raise is a terminal fault outcome of the run, given together with the state it leaves (R107):
the last argument of each constructor, the state before the instruction but for the record of reads already made. -/
inductive Fault where
  /-- `UNDEFINED` (R100), raised by the step for a word the decoder finds undefined and by LD4B's decode tests; carries
  the word (R105). Safe: the run stops. -/
  | undefined (w : InstrWord) (at_ : State)
  /-- `CheckSVEEnabled()` failed (R102), raised by LD4B. Safe: the run stops. -/
  | sveAccessTrap (at_ : State)
  /-- `CheckSPAlignment()` failed (R103), raised by LD4B when its base is `SP`. Safe: the run stops. -/
  | spAlignmentFault (at_ : State)
  /-- The read of an active element's byte faulted (R104), raised by LD4B; carries the byte's address, the element
  number, the register index and the kind (R105). Safe as a stop; which byte is reported is a choice (D21, unsafe). -/
  | dataAbort (addr : Word) (e : Nat) (r : Fin 4) (kind : FaultKind) (at_ : State)
  /-- The platform's fetch fault, which precedes decode (R106, R121), raised by the step. Safe: the run stops. -/
  | fetchFault (addr : Word) (kind : FaultKind) (at_ : State)
deriving DecidableEq, Repr

/-- The state a raise is given with (R107). -/
def Fault.state : Fault → State
  | .undefined _ s => s
  | .sveAccessTrap s => s
  | .spAlignmentFault s => s
  | .dataAbort _ _ _ _ s => s
  | .fetchFault _ _ s => s

/-- The reasons the model gives a word no meaning. -/
inductive Refusal where
  /-- The instruction of this mnemonic has no meaning yet, raised by `exec`. Safe. -/
  | notModelled (mnemonic : String)
  /-- The word does not match the LD4B pattern and is outside the spec (R70), raised by the step. Safe. -/
  | outOfScope (w : InstrWord)
  /-- The program counter is not a multiple of 4, so the fetch is refused (D5, U16), raised by the step. Safe. -/
  | misalignedPc (pc : Word)
deriving DecidableEq, Repr

/-- The outcome of an instruction or of a step. -/
abbrev Out := Host.Outcome State Fault Refusal

end Sys2Proof.Machine
end

