-- ==== Sys2Proof/Machine/Ops.lean ====
section
/-! DEFINITION. The named operations over memory, registers and the platform's parameters, and the raise. -/

namespace Sys2Proof.Machine

/-! ### Arithmetic -/

/-- `b + i` for a bit-string and an integer: wraps modulo `2^64`, silently (R13). -/
def addInt (b : Word) (i : Nat) : Word := BitVec.ofNat 64 (b.toNat + i)

/-! ### Element accessors -/

/-- `Elem[v, e, size]`: bits `(e+1)*size-1` down to `e*size` of `v` (R18). -/
def elemGet {n : Nat} (v : BitVec n) (e size : Nat) : BitVec size := v.extractLsb' (e * size) size

/-- `Elem[v, e, size] = b` (R18). -/
def elemSet {n : Nat} (v : BitVec n) (e size : Nat) (b : BitVec size) : BitVec n :=
  (v &&& ~~~((BitVec.allOnes size).setWidth n <<< (e * size))) ||| (b.setWidth n <<< (e * size))

/-! ### Memory -/

/-- What an address that no entry lists reads as. DESIGN CHOICE, unsafe: notes/assumptions/3.md. -/
def Memory.unlisted : Byte := 0#8

/-- The byte at an address. -/
def Memory.read : Memory → Nat → Byte
  | [], _ => Memory.unlisted
  | (k, b) :: rest, a => if k = a then b else Memory.read rest a

/-- An entry put before a memory, left out where it says what an unlisted address reads as. -/
def Memory.entry (a : Nat) (v : Byte) (m : Memory) : Memory := if v = Memory.unlisted then m else (a, v) :: m

/-- Write the byte at an address, keeping the canonical form. -/
def Memory.write : Memory → Nat → Byte → Memory
  | [], a, v => Memory.entry a v []
  | (k, b) :: rest, a, v =>
    if a < k then Memory.entry a v ((k, b) :: rest)
    else if a = k then Memory.entry a v rest
    else (k, b) :: Memory.write rest a v

/-- The canonical form from an address on: addresses strictly rising, at least `low` and below `2^64`, and no entry equal
to what an unlisted address reads as. -/
def Memory.wfFrom : Nat → Memory → Bool
  | _, [] => true
  | low, (k, b) :: rest => decide (low ≤ k) && decide (k < 2 ^ 64) && b != Memory.unlisted && Memory.wfFrom (k + 1) rest

/-- The canonical form of a memory. -/
def Memory.wf (m : Memory) : Bool := Memory.wfFrom 0 m

/-- Write bytes at ascending addresses from `a`, modulo `2^64`. -/
def Memory.writeBytes : Memory → Word → List Byte → Memory
  | m, _, [] => m
  | m, a, b :: bs => Memory.writeBytes (m.write a.toNat b) (addInt a 1) bs

/-- `mem[a]` (R34). -/
def State.memByte (s : State) (a : Word) : Byte := s.mem.read a.toNat

/-! ### Registers -/

/-- `X[n]` (R15, R20). -/
def State.readX (s : State) (n : Fin 31) : Word := s.x[n]

/-- `P[g]`, `P0` to `P7` (R15, R24). -/
def State.readP (s : State) (g : Fin 8) : BitVec s.cfg.PL := s.p[g.val]

/-- Byte `e` of `Z[j]`: bits `8e+7` down to `8e` (R27). -/
def State.zByte (s : State) (j : Fin 32) (e : Nat) : Byte := elemGet s.z[j] e 8

/-- Write the whole vector file. -/
def State.setZ (s : State) (z : Vector (BitVec s.cfg.VL) 32) : State := { s with z := z }

/-- `pc <- target` (R15). -/
def State.setPc (s : State) (target : Word) : State := { s with pc := target }

/-- The completion of an instruction: `pc <- pc + 4` modulo `2^64` (R23, R90). -/
def State.advance (s : State) : State := s.setPc (addInt s.pc 4)

/-- Record data bytes read, after those read before (R44, R46). -/
def State.logReads (s : State) (as : List Word) : State := { s with reads := s.reads ++ as }

/-- Replace the memory. -/
def State.setMem (s : State) (m : Memory) : State := { s with mem := m }

/-! ### The platform's parameters -/

/-- The address lies in the range. -/
def AddrRange.contains (r : AddrRange) (a : Word) : Bool := decide (r.first ≤ a) && decide (a ≤ r.last)

/-- The entry applies under this `tag_checked` indication (R32). -/
def TagCondition.admits : TagCondition → Bool → Bool
  | .always, _ => true
  | .whenTagChecked, t => t
  | .whenNotTagChecked, t => !t

/-- The kind can arise on a read of this access type. A data read is of one byte, which is aligned at every address, so no
alignment fault arises on it (R42, R101, R104). -/
def FaultKind.canArise (k : FaultKind) (acc : AccType) : Bool := !(k == .alignment && acc == .normal)

/-- The entry applies to this read. -/
def FaultRange.applies (f : FaultRange) (acc : AccType) (tagChecked : Bool) (a : Word) : Bool :=
  f.acc == acc && FaultKind.canArise f.kind acc && f.tag.admits tagChecked && f.range.contains a

/-- `mem_fault(s, a)`, which may take the access type and `tag_checked` into account, and which never gives an alignment
fault for a data read (R32, R42, R48, R104). -/
def State.memFault (s : State) (acc : AccType) (tagChecked : Bool) (a : Word) : Option FaultKind :=
  (s.faultMap.find? fun f => f.applies acc tagChecked a).map FaultRange.kind

/-- `is_device(a)` (R46). -/
def State.isDevice (s : State) (a : Word) : Bool := s.deviceMap.any fun r => r.contains a

/-- The reads made so far that other agents or devices can observe: those of Device memory (R46). -/
def State.deviceReads (s : State) : List Word := s.reads.filter s.isDevice

/-- `MemRead(addr, 1)`: the byte, or the kind of the fault (R16, R104). -/
def State.memRead (s : State) (acc : AccType) (tagChecked : Bool) (a : Word) : Except FaultKind Byte :=
  match s.memFault acc tagChecked a with
  | some k => .error k
  | none => .ok (s.memByte a)

/-- `CheckSVEEnabled()` returns (R102). -/
def State.checkSVEEnabled (s : State) : Bool := s.sveEnabled

/-- `CheckSPAlignment()` returns: the check is disabled, or `SP` is a multiple of 16 (R43, R103). -/
def State.checkSPAlignment (s : State) : Bool := !s.spCheckEnabled || s.sp.toNat % 16 == 0

/-! ### The raise -/

/-- Raise an exception: the one way an instruction fails to complete. No handler is entered, nothing is saved, and the
outcome carries the state given (R17, R107, D13). No return from an exception exists (R109). -/
def raise (f : State → Fault) (s : State) : Host.Outcome State Fault Refusal := .fault (f s)

/-! ### Fetch -/

/-- What fetching an instruction word answers. -/
inductive Fetched where
  | word (w : InstrWord)
  | misaligned
  | faulted (a : Word) (kind : FaultKind)
deriving DecidableEq, Repr

/-- The first of `n` bytes from `a` whose fetch faults. The `tag_checked` indication is FALSE before an execution starts
(R32). -/
def State.fetchFaultAt (s : State) : Nat → Word → Option (Word × FaultKind)
  | 0, _ => none
  | n + 1, a =>
    match s.memFault .ifetch false a with
    | some k => some (a, k)
    | none => State.fetchFaultAt s n (addInt a 1)

/-- Fetch the word at `pc`: `pc` is a multiple of 4 or the fetch is refused (D5); a platform's fetch fault precedes decode
(R106); the byte at `pc` holds bits 7 to 0 (R41). -/
def State.fetch (s : State) : Fetched :=
  if s.pc.toNat % 4 ≠ 0 then .misaligned
  else
    match s.fetchFaultAt 4 s.pc with
    | some (a, k) => .faulted a k
    | none =>
      .word (wordOfBytes (s.memByte s.pc) (s.memByte (addInt s.pc 1)) (s.memByte (addInt s.pc 2)) (s.memByte (addInt s.pc 3)))

end Sys2Proof.Machine
end

