-- ==== Sys2Proof/Machine/Operands.lean ====
section
/-! DEFINITION. The operand forms: general-purpose index, base register or stack pointer, destination list, addresses. -/

namespace Sys2Proof.Machine

/-- The general-purpose register a 5-bit field names: 31 names none in either field (R20). -/
def gprIndex (f : Fin 32) : Option (Fin 31) := if h : f.val < 31 then some ⟨f.val, h⟩ else none

/-- The value of `<Xn|SP>`: `X[n]`, or `SP` once `CheckSPAlignment()` has returned; none where the check fails (R43, R65,
R82). -/
def State.baseOperand (s : State) (rn : Fin 32) : Option Word :=
  match gprIndex rn with
  | some n => some (s.readX n)
  | none => if s.checkSPAlignment then some s.sp else none

/-- The base value of R84 without the check: `SP` when the field is 31 and `X[n]` otherwise (R82). -/
def State.baseValue (s : State) (rn : Fin 32) : Word :=
  match gprIndex rn with
  | some n => s.readX n
  | none => s.sp

/-- The destination registers `(t + r) MOD 32` (R64). -/
def destReg (zt : Fin 32) (r : Fin 4) : Fin 32 := ⟨(zt.val + r.val) % 32, Nat.mod_lt _ (by decide)⟩

/-- The register is none of the four destinations. -/
def notDest (zt j : Fin 32) : Prop := ∀ r : Fin 4, j ≠ destReg zt r

/-- The closed form of the effective address, `A(e, r) = (B + I + 4e + r) mod 2^64` (R84). The meaning computes addresses
by the page's loop; this is what the loop is claimed to compute. -/
def effAddr (base index : Word) (e r : Nat) : Word := BitVec.ofNat 64 (base.toNat + index.toNat + 4 * e + r)

/-- The four register writes in order, `Z[(t+r) MOD 32] = values[r]` for `r = 0` to `3` (R89). -/
def writeDests {n : Nat} (zt : Fin 32) (values : Vector (BitVec n) 4) (z : Vector (BitVec n) 32) : Vector (BitVec n) 32 :=
  ([0, 1, 2, 3] : List (Fin 4)).foldl (fun z r => z.set (destReg zt r) values[r]) z

end Sys2Proof.Machine
end

