-- ==== Sys2Proof/Machine/Flags.lean ====
section
/-! DEFINITION. The condition-like state: the governing predicate. The page names no condition flag, and the instruction reads none and writes none (R29, R91), so there is no flag computation. -/

namespace Sys2Proof.Machine

/-- `ElemP[p, e, esize] == '1'`: bit `e * (esize DIV 8)` of the predicate (R18, R25). -/
def elemP {n : Nat} (p : BitVec n) (e size : Nat) : Bool := p.getLsbD (e * (size / 8))

/-- Element `e` is active under `P[g]` (R25). -/
def State.active (s : State) (pg : Fin 8) (e : Nat) : Bool := elemP (s.readP pg) e esize

end Sys2Proof.Machine
end

