-- ==== Sys2Proof/Machine/Ld4b.lean ====
section
/-! DEFINITION. The meaning of LD4B (scalar plus scalar), statement by statement as its pseudocode stands (R80, R81). -/

namespace Sys2Proof.Machine

/-- The locals of one execution that its loops change (R19); `reads` collects the addresses read. -/
structure Scratch (vl : Nat) where
  offset : Word
  addr : Word
  values : Vector (BitVec vl) 4
  reads : List Word
deriving DecidableEq, Repr

/-- What a read that faults ends the loops with (R105), and the reads made before it (R107). -/
structure Abort where
  addr : Word
  e : Nat
  r : Fin 4
  kind : FaultKind
  reads : List Word
deriving DecidableEq, Repr

/-- One pass of the inner loop: `Elem[values[r], e, esize]` becomes the byte at `addr` for an active element and `Zeros()`
for an inactive one, and `addr = addr + mbytes` either way (R86, R87). -/
def registerStep {vl : Nat} (s : State) (tagChecked active : Bool) (e : Nat) (r : Fin 4) (l : Scratch vl) :
    Except Abort (Scratch vl) :=
  if active then
    match s.memRead .normal tagChecked l.addr with
    | .error k => .error { addr := l.addr, e := e, r := r, kind := k, reads := l.reads }
    | .ok b =>
      .ok { l with
        values := l.values.set r (elemSet l.values[r] e esize b)
        addr := addInt l.addr mbytes
        reads := l.reads ++ [l.addr] }
  else
    .ok { l with
      values := l.values.set r (elemSet l.values[r] e esize 0#esize)
      addr := addInt l.addr mbytes }

/-- The inner loop over the register indexes given (R81). -/
def registerLoop {vl : Nat} (s : State) (tagChecked active : Bool) (e : Nat) :
    List (Fin 4) → Scratch vl → Except Abort (Scratch vl)
  | [], l => .ok l
  | r :: rs, l =>
    match registerStep s tagChecked active e r l with
    | .error a => .error a
    | .ok l' => registerLoop s tagChecked active e rs l'

/-- One pass of the outer loop: `addr = base + UInt(offset) * mbytes`, the inner loop, `offset = offset + nreg` (R81,
R83). -/
def elementStep {vl : Nat} (s : State) (tagChecked active : Bool) (base : Word) (e : Nat) (l : Scratch vl) :
    Except Abort (Scratch vl) :=
  match registerLoop s tagChecked active e [0, 1, 2, 3] { l with addr := addInt base (l.offset.toNat * mbytes) } with
  | .error a => .error a
  | .ok l' => .ok { l' with offset := addInt l'.offset nreg }

/-- The outer loop over the element numbers given (R81, R85). -/
def elementLoop {vl pl : Nat} (s : State) (tagChecked : Bool) (mask : BitVec pl) (base : Word) :
    List Nat → Scratch vl → Except Abort (Scratch vl)
  | [], l => .ok l
  | e :: es, l =>
    match elementStep s tagChecked (elemP mask e esize) base e l with
    | .error a => .error a
    | .ok l' => elementLoop s tagChecked mask base es l'

/-- LD4B (scalar plus scalar): the two decode tests, `CheckSVEEnabled()`, the reads of `P[g]` and `X[m]`, the tag-checked
indication, the base with its alignment check, the loops, the write-back, `pc <- pc + 4` (R80). -/
def execLd4b (zt : Fin 32) (pg : Fin 8) (rn rm : Fin 32) (s : State) : Host.Outcome State Fault Refusal :=
  if !s.cfg.haveSve then raise (.undefined (encode (.ld4b zt pg rn rm))) s
  else
    match gprIndex rm with
    | none => raise (.undefined (encode (.ld4b zt pg rn rm))) s
    | some m =>
      if !s.checkSVEEnabled then raise .sveAccessTrap s
      else
        match s.baseOperand rn with
        | none => raise .spAlignmentFault s
        | some base =>
          match elementLoop s s.cfg.haveMte (s.readP pg) base (List.range s.cfg.elements)
              { offset := s.readX m, addr := 0, values := Vector.replicate 4 (0#s.cfg.VL), reads := [] } with
          | .error a => raise (.dataAbort a.addr a.e a.r a.kind) (s.logReads a.reads)
          | .ok l => .next ((s.setZ (writeDests zt l.values s.z)).logReads l.reads).advance

end Sys2Proof.Machine
end

