-- ==== Sys2Proof/Machine/Dispatch.lean ====
section
/-! DEFINITION. The meaning of every instruction, one arm per constructor. -/

namespace Sys2Proof.Machine

def exec (i : Instr) (s : State) : Host.Outcome State Fault Refusal :=
  match i with
  | .ld4b zt pg rn rm => Sys2Proof.Machine.execLd4b zt pg rn rm s

end Sys2Proof.Machine
end

