-- ==== Sys2Proof/Machine/Step.lean ====
section
/-! DEFINITION. One step: fetch, decode, execute. -/

namespace Sys2Proof.Machine

/-- One step. The fetch comes before decode (R106); a word the decoder finds undefined raises `Undefined(w)` before any
state is read (R100); a word outside the spec is refused (R70); a valid word is executed. -/
def step (s : State) : Host.Outcome State Fault Refusal :=
  match s.fetch with
  | .misaligned => .refused (.misalignedPc s.pc)
  | .faulted a k => raise (.fetchFault a k) s
  | .word w =>
    match decodeWord s.cfg.haveSve w with
    | .instr i => exec i s
    | .undefined w => raise (.undefined w) s
    | .outOfScope w => .refused (.outOfScope w)
    | .truncated => .refused (.outOfScope w)

/-- The state with the word of an opcode-table row stored where the step fetches: its four bytes at `pc` (R41). It stands
for the loading of a program from outside the machine (notes/assumptions/4.md). -/
def State.withFetchWord (s : State) (nbits w : Nat) : State :=
  s.setMem (s.mem.writeBytes s.pc (bytesOfWord (tableWord nbits w)))

end Sys2Proof.Machine
end

