-- ==== Sys2Proof/Safety.lean ====
section
/-! DEFINITION. What a safe run is: the invariant of the machine, and the launch preconditions of an instruction. -/

namespace Sys2Proof.Machine

/-- The program counter is a multiple of 4 (R43, D5). -/
abbrev State.PcAligned (s : State) : Prop := s.pc.toNat % 4 = 0

/-- The invariant that every step keeps: memory is in its canonical form, and the program counter is a multiple of 4. -/
abbrev State.Inv (s : State) : Prop := s.mem.wf = true ∧ s.PcAligned

/-- The launch preconditions that do not speak of memory or of the index field: SVE is present and enabled, and a stack
pointer used as base passes its check (R121, items 2, 4 and 6). -/
abbrev ChecksPass (rn : Fin 32) (s : State) : Prop :=
  s.cfg.haveSve = true ∧ s.sveEnabled = true ∧ (rn = 31 → s.spCheckEnabled = true → s.sp.toNat % 16 = 0)

/-- Bit `e` of `P[g]`, for all sixteen predicate registers (R24, R25). -/
def State.pBit (s : State) (g : Fin 16) (e : Nat) : Bool := s.p[g].getLsbD e

/-- `A(e, r)` for the operands of an instruction in a state (R84). -/
def State.addrOf (s : State) (rn : Fin 32) (m : Fin 31) (e r : Nat) : Word := effAddr (s.baseValue rn) (s.readX m) e r

/-- Every byte of every active element can be read (R121, item 7). -/
abbrev ActiveBytesReadable (pg : Fin 8) (rn : Fin 32) (m : Fin 31) (s : State) : Prop :=
  ∀ e < s.cfg.elements, s.active pg e = true →
    ∀ r < 4, s.memFault .normal s.cfg.haveMte (s.addrOf rn m e r) = none

/-- The addresses of the bytes that an execution reads in the elements below `n`: four for each active element, in the
order of the page's loop (R44). -/
def State.activeAddrs (s : State) (pg : Fin 8) (rn : Fin 32) (m : Fin 31) (n : Nat) : List Word :=
  (List.range n).flatMap fun e => if s.active pg e then (List.range 4).map (s.addrOf rn m e) else []

/-- Byte `(e, r)` is the first of an active element, `e` ascending and then `r` ascending, whose read faults, and it
faults with kind `k` (R92, point 5; R106). -/
abbrev FirstFault (pg : Fin 8) (rn : Fin 32) (m : Fin 31) (s : State) (e : Nat) (r : Fin 4) (k : FaultKind) : Prop :=
  e < s.cfg.elements ∧ s.active pg e = true ∧
    s.memFault .normal s.cfg.haveMte (s.addrOf rn m e r) = some k ∧
    (∀ e' < e, s.active pg e' = true → ∀ r' < 4, s.memFault .normal s.cfg.haveMte (s.addrOf rn m e' r') = none) ∧
    (∀ r' < r.val, s.memFault .normal s.cfg.haveMte (s.addrOf rn m e r') = none)

/-- The same raise, with what it carries but the state (R105), given with another state. -/
def Fault.withState (f : Fault) (s : State) : Fault :=
  match f with
  | .undefined w _ => .undefined w s
  | .sveAccessTrap _ => .sveAccessTrap s
  | .spAlignmentFault _ => .spAlignmentFault s
  | .dataAbort a e r k _ => .dataAbort a e r k s
  | .fetchFault a k _ => .fetchFault a k s

/-- `k` steps, ending at the first raise or refusal: after one the run is over (R107, R109). -/
def run : Nat → State → Out
  | 0, s => .next s
  | k + 1, s =>
    match step s with
    | .next t => run k t
    | .fault f => .fault f
    | .refused r => .refused r

end Sys2Proof.Machine
end

