-- ==== Sys2Proof/Certificates/Slice0/Obligations.lean ====
section
/-! DEFINITION. The statements for the provers, each from the rules of spec/. In these, `m : Fin 31` and `m.castSucc` range over the index fields 0 to 30, every one but 31, which has statements of its own. -/

open Sys2Proof Sys2Proof.Machine

/-! ### Encoding and decoding -/

/-- R61, R63: decoding the word, or the bytes, of any well-formed instruction gives the instruction back. -/
def Obligations.DecodeOfEncodeIsTheInstruction : Prop :=
  ∀ i : Instr, i.WF → decodeWord true (encode i) = .instr i ∧
    ∀ rest : List Byte, decodeBytes true (encodeBytes i ++ rest) = .instr i

/-- R63, R67: a word that decodes to an instruction is that instruction's word, the instruction is well formed, and SVE is
present. -/
def Obligations.DecodedWordIsItsEncoding : Prop :=
  ∀ (haveSve : Bool) (w : InstrWord) (i : Instr),
    decodeWord haveSve w = .instr i → encode i = w ∧ i.WF ∧ haveSve = true

/-- R63, R67, R70: the decoder is total and answers by the mask and match value alone: an instruction for a matching word
whose bits 20 to 16 are not `11111`, where SVE is present; undefined for every other matching word; out of scope for
every word that does not match. R70's three answers are the spec's own decision D19. -/
def Obligations.DecoderAnswersByMaskAndMatch : Prop :=
  ∀ (haveSve : Bool) (w : InstrWord),
    ((w &&& 0xFFE0E000#32 = 0xA460C000#32 ∧ haveSve = true ∧ w &&& 0x001F0000#32 ≠ 0x001F0000#32) ↔
      ∃ i, decodeWord haveSve w = .instr i) ∧
    ((w &&& 0xFFE0E000#32 = 0xA460C000#32 ∧ (haveSve = false ∨ w &&& 0x001F0000#32 = 0x001F0000#32)) ↔
      decodeWord haveSve w = .undefined w) ∧
    (w &&& 0xFFE0E000#32 ≠ 0xA460C000#32 ↔ decodeWord haveSve w = .outOfScope w)

/-- R61: the format, column by column: in every instruction's word bits 31:25 are `1010010`, bits 24 and 23 are `0`, bits
22:21 are `11` and bits 15:13 are `110`, the fields stand at 20:16, 12:10, 9:5 and 4:0; the fixed bits are these fourteen
and no others: every word that has them is the word of some instruction; and `Rn` = 31, and no other, is the stack
pointer. -/
def Obligations.EncodedWordIsTheDiagram : Prop :=
  (∀ (zt : Fin 32) (pg : Fin 8) (rn rm : Fin 32), ∃ w, encode (.ld4b zt pg rn rm) = w ∧
    w.extractLsb' 25 7 = 0b1010010#7 ∧ w.extractLsb' 24 1 = 0b0#1 ∧ w.extractLsb' 23 1 = 0b0#1 ∧
    w.extractLsb' 21 2 = 0b11#2 ∧ w.extractLsb' 16 5 = BitVec.ofNat 5 rm.val ∧ w.extractLsb' 13 3 = 0b110#3 ∧
    w.extractLsb' 10 3 = BitVec.ofNat 3 pg.val ∧ w.extractLsb' 5 5 = BitVec.ofNat 5 rn.val ∧
    w.extractLsb' 0 5 = BitVec.ofNat 5 zt.val) ∧
  (∀ w : InstrWord, w.extractLsb' 25 7 = 0b1010010#7 → w.extractLsb' 24 1 = 0b0#1 → w.extractLsb' 23 1 = 0b0#1 →
    w.extractLsb' 21 2 = 0b11#2 → w.extractLsb' 13 3 = 0b110#3 → ∃ i, encode i = w) ∧
  ∀ (zt : Fin 32) (pg : Fin 8) (rn rm : Fin 32) (a : AsmStatement),
    disassemble (.ld4b zt pg rn rm) = some a → (a.base = .sp ↔ rn = 31)

/-- R67: the word for given operands is `0xA460C000 + (Rm << 16) + (Pg << 10) + (Rn << 5) + Zt`. -/
def Obligations.EncodingIsTheSumOfItsFields : Prop :=
  ∀ (zt : Fin 32) (pg : Fin 8) (rn rm : Fin 32),
    (encode (.ld4b zt pg rn rm)).toNat = 0xA460C000 + (rm.val <<< 16) + (pg.val <<< 10) + (rn.val <<< 5) + zt.val

/-- R67, R70: flipping any one of the fourteen fixed bits of any instruction's word, an undefined one's too, gives a word
outside the spec, on hardware with SVE and without. -/
def Obligations.FlippedFixedBitIsOutOfScope : Prop :=
  ∀ (haveSve : Bool) (i : Instr), ∀ b ∈ [13, 14, 15, 21, 22, 23, 24, 25, 26, 27, 28, 29, 30, 31],
    decodeWord haveSve (encode i ^^^ (1#32 <<< b)) = .outOfScope (encode i ^^^ (1#32 <<< b))

/-- Words written out bit by bit from the diagram (R61), vectors E3, E4, E6 and E11 of 95_test_vectors.md: fields `Rm Pg
Rn Zt` between the fixed bits. -/
def Obligations.WordsWrittenFromTheDiagramDecode : Prop :=
  decodeWord true 0b10100100011_00101_110_011_00010_00100#32 = .instr (.ld4b 4 3 2 5) ∧
  decodeWord true 0b10100100011_00010_110_111_11111_11110#32 = .instr (.ld4b 30 7 31 2) ∧
  decodeWord true 0b10100100011_11110_110_111_11111_11111#32 = .instr (.ld4b 31 7 31 30) ∧
  decodeWord true 0b10100100011_11111_110_110_11111_10100#32 = .undefined 0xA47FDBF4#32 ∧
  decodeBytes true [0x44#8, 0xCC#8, 0x65#8, 0xA4#8] = .instr (.ld4b 4 3 2 5)

/-- R69: a matching word whose bits 20 to 16 are `11111` is undefined at decode, with SVE and without, and the step of
every state that fetches it raises `Undefined` with the word and that very state: no other state matters, and nothing
changes. That the raise is a fault carrying the word and the unchanged state is R100, R105 and the spec's decision D13
(log entry 9). -/
def Obligations.IndexField31IsUndefined : Prop :=
  ∀ w : InstrWord, w &&& 0xFFE0E000#32 = 0xA460C000#32 → w.extractLsb' 16 5 = 0b11111#5 →
    (∀ haveSve : Bool, decodeWord haveSve w = .undefined w) ∧
    ∀ s : State, s.fetch = .word w → step s = .fault (.undefined w s)

/-- R68: without SVE every matching word is undefined, whatever its fields, and the step that fetches it raises
`Undefined`. That the raise is a fault carrying the word and the unchanged state is R100, R105 and the spec's decision D13
(log entry 9), and `have_sve` is kept as a parameter (D2, log entry 21). -/
def Obligations.WithoutSveEveryMatchingWordIsUndefined : Prop :=
  ∀ w : InstrWord, w &&& 0xFFE0E000#32 = 0xA460C000#32 →
    decodeWord false w = .undefined w ∧
    ∀ s : State, s.cfg.haveSve = false → s.fetch = .word w → step s = .fault (.undefined w s)

/-! ### Assembly statements -/

/-- R74: a valid instruction disassembles to a well-formed statement, which assembles to it. -/
def Obligations.AssembleOfDisassembleIsTheInstruction : Prop :=
  ∀ i : Instr, i.WF → ∃ a, disassemble i = some a ∧ a.wf = true ∧ assemble a = some i

/-- R74: exactly the well-formed statements have an encoding, and it is a valid instruction that disassembles to the
statement. -/
def Obligations.ExactlyWellFormedStatementsAssemble : Prop :=
  ∀ a : AsmStatement, (a.wf = true ↔ ∃ i, assemble a = some i) ∧
    ∀ i, assemble a = some i → i.WF ∧ disassemble i = some a

/-! ### Fetch and step -/

/-- R41, R106, R121: where `pc` is a multiple of 4 and no fetch of its four bytes faults, and the four bytes decode to an
instruction, the step is `exec` of it; nothing stands around `exec`. The byte order and the alignment are the spec's
decisions D8 and D5. -/
def Obligations.StepRunsTheDecodedInstruction : Prop :=
  ∀ (s : State) (i : Instr), s.PcAligned →
    (∀ k < 4, s.memFault .ifetch false (addInt s.pc k) = none) →
    decodeBytes s.cfg.haveSve ((List.range 4).map fun k => s.memByte (addInt s.pc k)) = .instr i →
    step s = exec i s

/-- D5, R106, R70: a `pc` that is not a multiple of 4 is refused; of an aligned one the first byte whose fetch faults
raises the platform's fetch fault, whatever the word; a fetched word outside the spec is refused. These stops are the
spec's decisions D5 and D19. -/
def Obligations.StepStopsBeforeDecode : Prop :=
  ∀ s : State,
    (¬ s.PcAligned → step s = .refused (.misalignedPc s.pc)) ∧
    (∀ k < 4, ∀ kind, s.PcAligned → s.memFault .ifetch false (addInt s.pc k) = some kind →
      (∀ k' < k, s.memFault .ifetch false (addInt s.pc k') = none) →
      step s = .fault (.fetchFault (addInt s.pc k) kind s)) ∧
    (∀ w, s.fetch = .word w → w &&& 0xFFE0E000#32 ≠ 0xA460C000#32 → step s = .refused (.outOfScope w))

/-- Log entry 4: the step of a state in which the word of a valid instruction has been stored where the step fetches is
`exec` of that instruction, and the storing changes memory only, in its four bytes only. -/
def Obligations.StoredWordIsTheOneRun : Prop :=
  ∀ (s : State) (i : Instr), i.WF → s.Inv → s.cfg.haveSve = true →
    (∀ k < 4, s.memFault .ifetch false (addInt s.pc k) = none) →
    let t := s.withFetchWord 32 (encode i).toNat
    step t = exec i t ∧ t = s.setMem t.mem ∧
      ∀ a, (∀ k < 4, a ≠ addInt s.pc k) → t.memByte a = s.memByte a

/-! ### The instruction: completion and result -/

/-- R84, R86, R87, R88, R89: where the checks pass and every active byte can be read, LD4B completes; the next state is
the state before but for the vector file, `pc` (plus 4, decision D5) and the model's record of reads (log entry 5): byte
`e` of `Z[(t + r) MOD 32]` is the byte at `A(e, r)` for an active element and zero for an inactive one, and every other
vector register is as before. -/
def Obligations.Ld4bCompletesWithDeinterleavedBytes : Prop :=
  ∀ (zt : Fin 32) (pg : Fin 8) (rn : Fin 32) (m : Fin 31) (s : State),
    ChecksPass rn s → ActiveBytesReadable pg rn m s →
    ∃ (z : Vector (BitVec s.cfg.VL) 32) (reads : List Word),
      exec (.ld4b zt pg rn m.castSucc) s = .next { s with z := z, pc := s.pc + 4#64, reads := reads } ∧
      (∀ (r : Fin 4) (e : Nat), e < s.cfg.VL / 8 →
        z[(zt.val + r.val) % 32].extractLsb' (8 * e) 8 =
          if (s.readP pg).getLsbD e then s.memByte (effAddr (s.baseValue rn) (s.readX m) e r) else 0x00#8) ∧
      (∀ j : Fin 32, (∀ r : Fin 4, j.val ≠ (zt.val + r.val) % 32) → z[j] = s.z[j])

/-- R92, R121: LD4B completes exactly where none of the five conditions holds. -/
def Obligations.Ld4bCompletesExactlyWhenNothingRaises : Prop :=
  ∀ (zt : Fin 32) (pg : Fin 8) (rn rm : Fin 32) (s : State),
    (∃ t, exec (.ld4b zt pg rn rm) s = .next t) ↔
      ∃ m : Fin 31, rm = m.castSucc ∧ ChecksPass rn s ∧ ActiveBytesReadable pg rn m s

/-- R92: the exceptions of the instruction and their points, in the order the pseudocode reaches them. The conditions of
the first four do not speak of the predicate; the fifth arises at the first faulting byte of an active element, and only
there. That the first faulting byte in the page's loop order is the one reported is the spec's decision D21 (R106, log
entry 11), the modulus 16 is D6 (R103, log entry 10), and the raises with the word and state they carry are D13 (R105,
R107, log entry 9). -/
def Obligations.ExceptionsInPseudocodeOrder : Prop :=
  ∀ (zt : Fin 32) (pg : Fin 8) (rn rm : Fin 32) (s : State),
    let w := encode (.ld4b zt pg rn rm)
    (s.cfg.haveSve = false → exec (.ld4b zt pg rn rm) s = .fault (.undefined w s)) ∧
    (s.cfg.haveSve = true → rm = 31 → exec (.ld4b zt pg rn rm) s = .fault (.undefined w s)) ∧
    (s.cfg.haveSve = true → rm ≠ 31 → s.sveEnabled = false → exec (.ld4b zt pg rn rm) s = .fault (.sveAccessTrap s)) ∧
    (s.cfg.haveSve = true → rm ≠ 31 → s.sveEnabled = true → rn = 31 → s.spCheckEnabled = true → s.sp.toNat % 16 ≠ 0 →
      exec (.ld4b zt pg rn rm) s = .fault (.spAlignmentFault s)) ∧
    (∀ m : Fin 31, rm = m.castSucc → ChecksPass rn s → ∀ e r k,
      (FirstFault pg rn m s e r k ↔
        ∃ a t, exec (.ld4b zt pg rn rm) s = .fault (.dataAbort a e r k t) ∧
          a = effAddr (s.baseValue rn) (s.readX m) e r))

/-- R42, R101, R104: no alignment fault on data arises: no `DataAbort` has that kind, and where the fault map speaks of
data reads only by entries of that kind, LD4B completes whatever its base and index are, once the checks pass. -/
def Obligations.NoAlignmentFaultOnData : Prop :=
  (∀ (i : Instr) (s t : State) (a : Word) (e : Nat) (r : Fin 4), exec i s ≠ .fault (.dataAbort a e r .alignment t)) ∧
  ∀ (zt : Fin 32) (pg : Fin 8) (rn : Fin 32) (m : Fin 31) (s : State),
    (∀ f ∈ s.faultMap, f.acc = .normal → f.kind = .alignment) → ChecksPass rn s →
    ∃ t, exec (.ld4b zt pg rn m.castSucc) s = .next t

/-- R17, R101: executing the instruction has one of two outcomes, completion or one of its four raises; never a fetch
fault and never a refusal. -/
def Obligations.ExecCompletesOrRaises : Prop :=
  ∀ (i : Instr) (s : State),
    (∃ t, exec i s = .next t) ∨ (∃ w, exec i s = .fault (.undefined w s)) ∨ exec i s = .fault (.sveAccessTrap s) ∨
      exec i s = .fault (.spAlignmentFault s) ∨ ∃ a e r k t, exec i s = .fault (.dataAbort a e r k t)

/-- R89, R107: a raise, of the instruction or of the step, leaves the state exactly as it was before, but for the model's
record of the byte reads already made (log entry 5), which only a data abort extends: by the active bytes before the one
that faults. -/
def Obligations.RaiseLeavesTheStateUnchanged : Prop :=
  (∀ (s : State) (f : Fault), step s = .fault f → ∃ done, f.state = { s with reads := s.reads ++ done }) ∧
  ∀ (zt : Fin 32) (pg : Fin 8) (rn : Fin 32) (m : Fin 31) (s t : State) (a : Word) (e : Nat) (r : Fin 4) (k : FaultKind),
    exec (.ld4b zt pg rn m.castSucc) s = .fault (.dataAbort a e r k t) →
      t = { s with reads := s.reads ++ (s.activeAddrs pg rn m e ++ (List.range r.val).map (s.addrOf rn m e)) }

/-- R86, R89, R64: for an active element `e` and each `r` in `0..3` the byte at `A(e, r)` becomes element `e` of the
register `(t + r) MOD 32`, bit for bit; a read that faults ends the instruction in a `DataAbort`. That the abort is at
that byte or at one before it is R106, the spec's decision D21 (log entry 11). -/
def Obligations.ActiveElementReceivesItsByte : Prop :=
  ∀ (zt : Fin 32) (pg : Fin 8) (rn : Fin 32) (m : Fin 31) (s : State), ∀ e < s.cfg.elements, s.active pg e = true →
    ∀ r : Fin 4,
      (∀ t, exec (.ld4b zt pg rn m.castSucc) s = .next t →
        t.zByte (destReg zt r) e = s.memByte (effAddr (s.baseValue rn) (s.readX m) e r)) ∧
      (∀ k, ChecksPass rn s → s.memFault .normal s.cfg.haveMte (effAddr (s.baseValue rn) (s.readX m) e r) = some k →
        ∃ a e' r' k' t, exec (.ld4b zt pg rn m.castSucc) s = .fault (.dataAbort a e' r' k' t) ∧
          (e' < e ∨ e' = e ∧ r'.val ≤ r.val))

/-- R87: an inactive element is zero in all four destinations whatever they held; no memory is read for its number; no
fault arises from its four addresses. One predicate bit covers the structure: it is loaded whole or not at all. That
nothing is read is said through the model's record of reads (log entry 5). -/
def Obligations.InactiveElementIsZeroedUnread : Prop :=
  ∀ (zt : Fin 32) (pg : Fin 8) (rn : Fin 32) (m : Fin 31) (s : State), ∀ e < s.cfg.elements,
    (∀ t, exec (.ld4b zt pg rn m.castSucc) s = .next t →
      (s.active pg e = false → ∀ r : Fin 4, t.zByte (destReg zt r) e = 0x00#8) ∧
      ∃ new, t.reads = s.reads ++ new ∧ ∀ r < 4, (s.addrOf rn m e r ∈ new ↔ s.active pg e = true)) ∧
    (∀ a e' r' k t, exec (.ld4b zt pg rn m.castSucc) s = .fault (.dataAbort a e' r' k t) → s.active pg e = false →
      e' ≠ e ∧ ∃ new, t.reads = s.reads ++ new ∧ ∀ r < 4, a ≠ s.addrOf rn m e r ∧ s.addrOf rn m e r ∉ new)

/-- R93 (a): with no active element and the checks passed, LD4B completes with four registers of zeros, the others as
before, and reads nothing, whatever the platform says of faults and of Device memory. -/
def Obligations.NoActiveElementReadsNothing : Prop :=
  ∀ (zt : Fin 32) (pg : Fin 8) (rn : Fin 32) (m : Fin 31) (s : State) (faults : List FaultRange) (devices : List AddrRange),
    ChecksPass rn s → s.readP pg = 0 →
    ∃ z : Vector (BitVec s.cfg.VL) 32,
      exec (.ld4b zt pg rn m.castSucc) { s with faultMap := faults, deviceMap := devices } =
        .next { s with faultMap := faults, deviceMap := devices, z := z, pc := s.pc + 4#64 } ∧
      (∀ r : Fin 4, z[destReg zt r] = 0) ∧ ∀ j, notDest zt j → z[j] = s.z[j]

/-- R44: a completing LD4B reads four bytes for each active element and no other byte; the addresses are distinct and lie
in the window of `VL DIV 2` addresses, modulo `2^64`, that starts at base plus index. The record of reads is the model's
(log entry 5), and its order is the page's loop order (D21). -/
def Obligations.ReadsFourBytesPerActiveElement : Prop :=
  ∀ (zt : Fin 32) (pg : Fin 8) (rn : Fin 32) (m : Fin 31) (s t : State),
    exec (.ld4b zt pg rn m.castSucc) s = .next t →
    ∃ new, t.reads = s.reads ++ new ∧ new = s.activeAddrs pg rn m s.cfg.elements ∧ new.Nodup ∧
      new.length = 4 * ((List.range s.cfg.elements).filter (s.active pg)).length ∧
      ∀ a ∈ new, (a - (s.baseValue rn + s.readX m)).toNat < s.cfg.VL / 2

/-- R46: the Device reads of a completing LD4B: exactly one for each byte of an active element that is Device memory, and
none for any other address. Exactly one is the spec's decision D20. -/
def Obligations.DeviceMemoryReadOncePerActiveByte : Prop :=
  ∀ (zt : Fin 32) (pg : Fin 8) (rn : Fin 32) (m : Fin 31) (s t : State),
    exec (.ld4b zt pg rn m.castSucc) s = .next t →
    ∃ new, t.deviceReads = s.deviceReads ++ new ∧
      (∀ a, s.isDevice a = true → (∃ e < s.cfg.elements, s.active pg e = true ∧ ∃ r < 4, a = s.addrOf rn m e r) →
        new.count a = 1) ∧
      ∀ a ∈ new, s.isDevice a = true ∧ ∃ e < s.cfg.elements, s.active pg e = true ∧ ∃ r < 4, a = s.addrOf rn m e r

/-- R22, R24, R29, R31, R64, R91: what a completing LD4B leaves unchanged: every general-purpose register, the stack
pointer, every predicate, every byte of memory, the configuration and the platform's parameters, and every byte of every
vector register but the four listed. -/
def Obligations.Ld4bFrame : Prop :=
  ∀ (zt : Fin 32) (pg : Fin 8) (rn rm : Fin 32) (s t : State), exec (.ld4b zt pg rn rm) s = .next t →
    (∀ n, t.readX n = s.readX n) ∧ t.sp = s.sp ∧ (∀ g e, t.pBit g e = s.pBit g e) ∧
      (∀ a, t.memByte a = s.memByte a) ∧ t.mem = s.mem ∧ t.cfg = s.cfg ∧ t.sveEnabled = s.sveEnabled ∧
      t.spCheckEnabled = s.spCheckEnabled ∧ t.faultMap = s.faultMap ∧ t.deviceMap = s.deviceMap ∧
      ∀ j : Fin 32, (∀ r < 4, j.val ≠ (zt.val + r) % 32) → ∀ e, t.zByte j e = s.zByte j e

/-- R64: the destination registers are `t`, `(t+1) MOD 32`, `(t+2) MOD 32` and `(t+3) MOD 32`, wrapping past register 31 to
register 0: a completing LD4B writes these four, that is, what they hold after it does not depend on what any vector
register held before, and it writes no other vector register. All 32 values of `Zt` are valid. -/
def Obligations.DestinationsAreConsecutiveModulo32 : Prop :=
  ∀ (zt : Fin 32) (pg : Fin 8) (rn rm : Fin 32),
    (rm ≠ 31 → decodeWord true (encode (.ld4b zt pg rn rm)) = .instr (.ld4b zt pg rn rm)) ∧
    ∀ s t : State, exec (.ld4b zt pg rn rm) s = .next t →
      ∃ (z : Vector (BitVec s.cfg.VL) 32) (pc : Word) (reads : List Word),
        t = { s with z := z, pc := pc, reads := reads } ∧
        (∀ j : Fin 32, (∀ r < 4, j.val ≠ (zt.val + r) % 32) → z[j] = s.z[j]) ∧
        ∀ old : Vector (BitVec s.cfg.VL) 32, ∃ z' : Vector (BitVec s.cfg.VL) 32,
          exec (.ld4b zt pg rn rm) { s with z := old } = .next { s with z := z', pc := pc, reads := reads } ∧
          ∀ r : Fin 4, z'[(zt.val + r.val) % 32] = z[(zt.val + r.val) % 32]

/-! ### The instruction: what it depends on -/

/-- R91: the instruction writes no condition flag, no predicate and no status register (of these State holds predicates
only, sixteen, log entry 15), and of the predicates it reads `P[g]` alone: with any other values in the others it
completes alike, with the same vector file, `pc` and reads, or raises alike, with all that the raise carries. -/
def Obligations.NoPredicateWrittenOnlyTheGoverningOneRead : Prop :=
  ∀ (zt : Fin 32) (pg : Fin 8) (rn rm : Fin 32) (s : State),
    (∀ t, exec (.ld4b zt pg rn rm) s = .next t →
      ∃ (z : Vector (BitVec s.cfg.VL) 32) (pc : Word) (reads : List Word),
        t = { s with z := z, pc := pc, reads := reads } ∧
        ∀ p : Vector (BitVec s.cfg.PL) 16, p[pg.val] = s.p[pg.val] →
          exec (.ld4b zt pg rn rm) { s with p := p } = .next { s with p := p, z := z, pc := pc, reads := reads }) ∧
    ∀ f, exec (.ld4b zt pg rn rm) s = .fault f →
      (∀ g e, f.state.pBit g e = s.pBit g e) ∧
      ∀ p : Vector (BitVec s.cfg.PL) 16, p[pg.val] = s.p[pg.val] →
        ∃ t : State, exec (.ld4b zt pg rn rm) { s with p := p } = .fault (f.withState t) ∧
          ∀ g e, t.pBit g e = State.pBit { s with p := p } g e

/-- R22, R27, R55: the destinations depend on nothing but `VL`, the base, the index, the governing predicate and the
active bytes: two states that agree on these and pass the same checks give the same four registers, whatever their other
registers, `pc`, memory and earlier reads. -/
def Obligations.ResultDependsOnlyOnInputs : Prop :=
  ∀ (zt : Fin 32) (pg : Fin 8) (rn : Fin 32) (m : Fin 31) (s s' t : State),
    exec (.ld4b zt pg rn m.castSucc) s = .next t →
    s'.cfg.vq = s.cfg.vq → s'.baseValue rn = s.baseValue rn → s'.readX m = s.readX m →
    (∀ e < s.cfg.elements, s'.active pg e = s.active pg e) →
    (∀ e < s.cfg.elements, s.active pg e = true → ∀ r < 4, s'.memByte (s.addrOf rn m e r) = s.memByte (s.addrOf rn m e r)) →
    ChecksPass rn s' → ActiveBytesReadable pg rn m s' →
    ∃ t', exec (.ld4b zt pg rn m.castSucc) s' = .next t' ∧
      ∀ (r : Fin 4), ∀ e < s.cfg.elements, t'.zByte (destReg zt r) e = t.zByte (destReg zt r) e

/-- R55: executing LD4B again from the state it left, at the same `pc`, leaves the same state, but that the read events
are repeated. -/
def Obligations.SecondExecutionGivesTheSameState : Prop :=
  ∀ (i : Instr) (s t : State), exec i s = .next t →
    ∃ new, t.reads = s.reads ++ new ∧ exec i (t.setPc s.pc) = .next (t.logReads new)

/-- 95_test_vectors.md 2.4: with every element active, re-interleaving the four destinations byte by byte gives the bytes of
memory from base plus index on, `VL DIV 2` of them. -/
def Obligations.ReinterleavingReproducesMemory : Prop :=
  ∀ (zt : Fin 32) (pg : Fin 8) (rn : Fin 32) (m : Fin 31) (s t : State),
    exec (.ld4b zt pg rn m.castSucc) s = .next t → (∀ e < s.cfg.elements, s.active pg e = true) →
    ∀ k < s.cfg.VL / 2,
      t.zByte (destReg zt (Fin.ofNat 4 (k % 4))) (k / 4) = s.memByte (s.baseValue rn + s.readX m + BitVec.ofNat 64 k)

/-- R32, vector V12: the tagging extension acts through `mem_fault` alone: where no entry for data reads looks at the
tag-checked indication, LD4B completes with the extension as without it, with the same vector file and the same reads. -/
def Obligations.TaggingActsOnlyThroughMemFault : Prop :=
  ∀ (i : Instr) (s t : State) (b : Bool), (∀ f ∈ s.faultMap, f.acc = .normal → f.tag = .always) →
    exec i s = .next t →
    ∃ t', exec i { s with cfg := { s.cfg with haveMte := b } } = .next t' ∧ t'.reads = t.reads ∧
      ∀ (j : Fin 32) (e : Nat), t'.zByte j e = t.zByte j e

/-- R84, R93 (d), (f): the closed form is addition modulo `2^64`; base and index in one register start the window at twice
its value; a negative index steps back from the base. -/
def Obligations.EffectiveAddressWraps : Prop :=
  (∀ (b x : Word) (e r : Nat), effAddr b x e r = b + x + BitVec.ofNat 64 (4 * e + r)) ∧
  (∀ (s : State) (m : Fin 31), s.addrOf m.castSucc m 0 0 = 2#64 * s.readX m) ∧
  (∀ (b : Word) (e r : Nat), effAddr b (-16#64) e r = effAddr (b - 16#64) 0#64 e r) ∧
  effAddr 0xFFFFFFFFFFFFFFFF#64 0x21#64 0 0 = 0x20#64

/-! ### The machine -/

/-- The invariant holds at reset. The reset values are the model's choices (log entry 2). -/
def Obligations.ResetHasTheInvariant : Prop := State.reset.Inv

/-- Every step keeps the invariant: memory in its canonical form, `pc` a multiple of 4. -/
def Obligations.StepKeepsTheInvariant : Prop :=
  ∀ s t : State, s.Inv → step s = .next t → t.Inv

/-- R22, R23, R24, R29, R31, R53, R90: the machine's whole step: it advances `pc` by 4 (D5), writes the four vector
registers of one list, and changes nothing else, memory and so the program least of all; the record of reads grows at its
end. -/
def Obligations.StepChangesOnlyFourVectorRegistersAndPc : Prop :=
  ∀ s t : State, step s = .next t →
    ∃ (zt : Fin 32) (z : Vector (BitVec s.cfg.VL) 32) (new : List Word),
      t = { s with z := z, pc := s.pc + 4#64, reads := s.reads ++ new } ∧
      ∀ j : Fin 32, notDest zt j → z[j] = s.z[j]

/-- R53, R90: the only control flow is sequential: a run of `k` steps that ends in a state has advanced `pc` by `4k` modulo
`2^64` and left the registers, the predicates and memory, and so the program, as they were. -/
def Obligations.RunsAreSequential : Prop :=
  ∀ (k : Nat) (s t : State), run k s = .next t →
    t.pc = s.pc + BitVec.ofNat 64 (4 * k) ∧ t.x = s.x ∧ t.sp = s.sp ∧ (∀ g e, t.pBit g e = s.pBit g e) ∧
      t.mem = s.mem ∧ t.cfg = s.cfg
end

