-- ==== Sys2Proof/Laws/Element.lean ====
section
/-! SUPPORT. The laws of elements, addresses and destination registers. -/

namespace Sys2Proof.Machine

/-- The bits of a register after element `e` is written, for an element that lies inside the register. -/
theorem getLsbD_elemSet {n size : Nat} (v : BitVec n) (e : Nat) (b : BitVec size) (i : Nat)
    (he : e * size + size ≤ n) :
    (elemSet v e size b).getLsbD i =
      if e * size ≤ i ∧ i < e * size + size then b.getLsbD (i - e * size) else v.getLsbD i := by
  by_cases hi : i < n
  · by_cases h1 : i < e * size
    · simp [elemSet, hi, h1, show ¬ e * size ≤ i by omega]
    · by_cases h2 : i < e * size + size
      · simp [elemSet, hi, h1, h2, show i - e * size < size by omega, show e * size ≤ i by omega]
      · simp [elemSet, hi, h1, h2, show ¬ i - e * size < size by omega,
          BitVec.getLsbD_of_ge b (i - e * size) (by omega)]
  · rw [if_neg (by omega), BitVec.getLsbD_of_ge _ _ (by omega), BitVec.getLsbD_of_ge _ _ (by omega)]

/-- Reading element `e'` after element `e` is written, for byte elements that lie inside the register. -/
theorem elemGet_elemSet {n e e' : Nat} (v : BitVec n) (b : Byte) (he : (e + 1) * 8 ≤ n) :
    elemGet (elemSet v e 8 b) e' 8 = if e' = e then b else elemGet v e' 8 := by
  apply BitVec.eq_of_getLsbD_eq
  intro i hi
  split
  · subst e'
    simp [elemGet, getLsbD_elemSet v e b _ (by omega), hi]
  · simp [elemGet, getLsbD_elemSet v e b _ (by omega : e * 8 + 8 ≤ n), hi,
      show ¬ (e * 8 ≤ e' * 8 + i ∧ e' * 8 + i < e * 8 + 8) by omega]

/-- Two registers of whole bytes that agree on every element are equal. -/
theorem eq_of_elemGet {n k : Nat} {v w : BitVec n} (hn : n ≤ k * 8) (h : ∀ e < k, elemGet v e 8 = elemGet w e 8) : v = w := by
  ext i hi
  have := congrArg (fun b : Byte => b.getLsbD (i % 8)) (h (i / 8) (by omega))
  simp only [elemGet, BitVec.getLsbD_extractLsb', show i % 8 < 8 from Nat.mod_lt _ (by decide), decide_true,
    Bool.true_and, show i / 8 * 8 + i % 8 = i by omega] at this
  simpa [BitVec.getLsbD_eq_getElem hi] using this

@[simp] theorem toNat_addInt (b : Word) (i : Nat) : (addInt b i).toNat = (b.toNat + i) % 2 ^ 64 := rfl

@[simp] theorem toNat_effAddr (b x : Word) (e r : Nat) :
    (effAddr b x e r).toNat = (b.toNat + x.toNat + 4 * e + r) % 2 ^ 64 := rfl

/-- The inner loop's step of the address. -/
theorem addInt_effAddr (b x : Word) (e r : Nat) : addInt (effAddr b x e r) 1 = effAddr b x e (r + 1) := by
  apply BitVec.eq_of_toNat_eq; simp; omega

/-- The outer loop's address, from the running offset. -/
theorem addInt_base (b x : Word) (e : Nat) : addInt b ((addInt x (4 * e)).toNat * mbytes) = effAddr b x e 0 := by
  apply BitVec.eq_of_toNat_eq; simp [mbytes, esize]; omega

/-- The outer loop's step of the offset. -/
theorem addInt_addInt (x : Word) (i j : Nat) : addInt (addInt x i) j = addInt x (i + j) := by
  apply BitVec.eq_of_toNat_eq; simp; omega

theorem addInt_zero (x : Word) : addInt x 0 = x := by
  apply BitVec.eq_of_toNat_eq; simpa using Nat.mod_eq_of_lt x.isLt

/-- The four destinations are distinct. -/
theorem destReg_injective (zt : Fin 32) {r r' : Fin 4} (h : destReg zt r = destReg zt r') : r = r' := by
  have := congrArg Fin.val h
  simp only [destReg] at this
  ext
  omega

/-- What the write-back leaves in a destination register. -/
theorem writeDests_dest {n : Nat} (zt : Fin 32) (values : Vector (BitVec n) 4) (z : Vector (BitVec n) 32) (r : Fin 4) :
    (writeDests zt values z)[destReg zt r] = values[r] := by
  have hne : ∀ r' : Fin 4, r' ≠ r → (destReg zt r').val ≠ (destReg zt r).val :=
    fun r' h he => h (destReg_injective zt (Fin.ext he))
  simp only [writeDests, List.foldl, Fin.getElem_fin, Vector.getElem_set]
  match r with
  | 0 => simp [hne 1 (by decide), hne 2 (by decide), hne 3 (by decide)]
  | 1 => simp [hne 2 (by decide), hne 3 (by decide)]
  | 2 => simp [hne 3 (by decide)]
  | 3 => simp

/-- The write-back leaves every other register alone. -/
theorem writeDests_other {n : Nat} (zt j : Fin 32) (values : Vector (BitVec n) 4) (z : Vector (BitVec n) 32)
    (h : notDest zt j) : (writeDests zt values z)[j] = z[j] := by
  have hne : ∀ r : Fin 4, (destReg zt r).val ≠ j.val := fun r he => h r (Fin.ext he.symm)
  simp [writeDests, List.foldl, hne]

/-- The write-back done twice is the write-back. -/
theorem writeDests_twice {n : Nat} (zt : Fin 32) (values : Vector (BitVec n) 4) (z : Vector (BitVec n) 32) :
    writeDests zt values (writeDests zt values z) = writeDests zt values z := by
  apply Vector.ext
  intro j hj
  by_cases hd : ∃ r, (⟨j, hj⟩ : Fin 32) = destReg zt r
  · obtain ⟨r, hr⟩ := hd
    obtain rfl : j = (destReg zt r).val := congrArg Fin.val hr
    exact (writeDests_dest zt values (writeDests zt values z) r).trans (writeDests_dest zt values z r).symm
  · exact writeDests_other zt ⟨j, hj⟩ values _ (fun r h => hd ⟨r, h⟩)

/-- The index register of a field that is not 31. -/
theorem gprIndex_of_ne {f : Fin 32} (h : f ≠ 31) : ∃ n : Fin 31, gprIndex f = some n ∧ n.val = f.val := by
  have : f.val < 31 := by
    have := f.isLt
    have : f.val ≠ 31 := fun h' => h (Fin.ext h')
    omega
  exact ⟨⟨f.val, this⟩, by simp [gprIndex, this], rfl⟩

@[simp] theorem gprIndex_31 : gprIndex 31 = none := rfl

end Sys2Proof.Machine
end

