-- ==== Sys2Proof/Laws/Encoding.lean ====
section
/-! SUPPORT. The bits of an encoded instruction, and its fields. -/

namespace Sys2Proof

variable (zt : Fin 32) (pg : Fin 8) (rn rm : Fin 32)

/-- The bits of an encoded instruction, from bit 0 up: `Zt`, `Rn`, `Pg`, `110`, `Rm`, `10100100011` (R61). -/
theorem encode_getLsbD (i : Nat) :
    (encode (.ld4b zt pg rn rm)).getLsbD i =
      if i < 5 then (BitVec.ofFin (w := 5) zt).getLsbD i
      else if i - 5 < 5 then (BitVec.ofFin (w := 5) rn).getLsbD (i - 5)
      else if i - 5 - 5 < 3 then (BitVec.ofFin (w := 3) pg).getLsbD (i - 5 - 5)
      else if i - 5 - 5 - 3 < 3 then (0b110#3).getLsbD (i - 5 - 5 - 3)
      else if i - 5 - 5 - 3 - 3 < 5 then (BitVec.ofFin (w := 5) rm).getLsbD (i - 5 - 5 - 3 - 3)
      else (0b10100100011#11).getLsbD (i - 5 - 5 - 3 - 3 - 5) := by
  change BitVec.getLsbD (w := 11 + 5 + 3 + 3 + 5 + 5) (_ ++ _ ++ _ ++ _ ++ _ ++ _) i = _
  simp only [BitVec.getLsbD_append]

@[simp] theorem encode_bits_zt : (encode (.ld4b zt pg rn rm)).extractLsb' 0 5 = BitVec.ofFin (w := 5) zt := by
  apply BitVec.eq_of_getLsbD_eq
  intro i hi
  rw [BitVec.getLsbD_extractLsb', encode_getLsbD]
  interval_cases i <;> simp

@[simp] theorem encode_bits_rn : (encode (.ld4b zt pg rn rm)).extractLsb' 5 5 = BitVec.ofFin (w := 5) rn := by
  apply BitVec.eq_of_getLsbD_eq
  intro i hi
  rw [BitVec.getLsbD_extractLsb', encode_getLsbD]
  interval_cases i <;> simp

@[simp] theorem encode_bits_pg : (encode (.ld4b zt pg rn rm)).extractLsb' 10 3 = BitVec.ofFin (w := 3) pg := by
  apply BitVec.eq_of_getLsbD_eq
  intro i hi
  rw [BitVec.getLsbD_extractLsb', encode_getLsbD]
  interval_cases i <;> simp

@[simp] theorem encode_bits_rm : (encode (.ld4b zt pg rn rm)).extractLsb' 16 5 = BitVec.ofFin (w := 5) rm := by
  apply BitVec.eq_of_getLsbD_eq
  intro i hi
  rw [BitVec.getLsbD_extractLsb', encode_getLsbD]
  interval_cases i <;> simp

@[simp] theorem fieldZt_encode : fieldZt (encode (.ld4b zt pg rn rm)) = zt := by simp [fieldZt]
@[simp] theorem fieldRn_encode : fieldRn (encode (.ld4b zt pg rn rm)) = rn := by simp [fieldRn]
@[simp] theorem fieldPg_encode : fieldPg (encode (.ld4b zt pg rn rm)) = pg := by simp [fieldPg]
@[simp] theorem fieldRm_encode : fieldRm (encode (.ld4b zt pg rn rm)) = rm := by simp [fieldRm]

/-- The fixed bits of the pattern, from the mask and match value (R67 against R61). -/
theorem matchesLd4b_iff (w : InstrWord) :
    matchesLd4b w = true ↔ ∀ i < 32, ld4bMask.getLsbD i = true → w.getLsbD i = ld4bMatch.getLsbD i := by
  rw [matchesLd4b, beq_iff_eq]
  constructor
  · intro h i _ hm
    have := congrArg (fun v : InstrWord => v.getLsbD i) h
    simpa [hm] using this
  · intro h
    apply BitVec.eq_of_getLsbD_eq
    intro i hi
    by_cases hm : ld4bMask.getLsbD i = true
    · rw [BitVec.getLsbD_and, hm, Bool.and_true, h i hi hm]
    · have h0 : ld4bMatch.getLsbD i = false := by
        have hall : ∀ i < 32, ld4bMask.getLsbD i = false → ld4bMatch.getLsbD i = false := by decide
        exact hall i hi (by simpa using hm)
      rw [BitVec.getLsbD_and, h0]
      simp [hm]

/-- The four bytes of a word make it again. -/
theorem wordOfBytes_bytesOfWord (w : InstrWord) :
    wordOfBytes (w.extractLsb' 0 8) (w.extractLsb' 8 8) (w.extractLsb' 16 8) (w.extractLsb' 24 8) = w := by
  apply BitVec.eq_of_getLsbD_eq
  intro i hi
  change BitVec.getLsbD (w := 8 + 8 + 8 + 8) (_ ++ _ ++ _ ++ _) i = _
  simp only [BitVec.getLsbD_append, BitVec.getLsbD_extractLsb']
  split
  · simp [*]
  · split
    · rw [show 8 + (i - 8) = i by omega]; simp [*]
    · split
      · rw [show 16 + (i - 8 - 8) = i by omega]; simp [*]
      · rw [show 24 + (i - 8 - 8 - 8) = i by omega]; simp [show i - 8 - 8 - 8 < 8 by omega]

end Sys2Proof
end

