-- ==== Sys2Proof/Laws/State.lean ====
section
/-! SUPPORT. One lemma per field of State per named update. -/

namespace Sys2Proof.Machine

variable (s : State)

@[simp] theorem State.setZ_cfg (v : Vector (BitVec s.cfg.VL) 32) : (s.setZ v).cfg = s.cfg := rfl
@[simp] theorem State.setZ_x (v : Vector (BitVec s.cfg.VL) 32) : (s.setZ v).x = s.x := rfl
@[simp] theorem State.setZ_sp (v : Vector (BitVec s.cfg.VL) 32) : (s.setZ v).sp = s.sp := rfl
@[simp] theorem State.setZ_pc (v : Vector (BitVec s.cfg.VL) 32) : (s.setZ v).pc = s.pc := rfl
@[simp] theorem State.setZ_p (v : Vector (BitVec s.cfg.VL) 32) : (s.setZ v).p = s.p := rfl
@[simp] theorem State.setZ_z (v : Vector (BitVec s.cfg.VL) 32) : (s.setZ v).z = v := rfl
@[simp] theorem State.setZ_mem (v : Vector (BitVec s.cfg.VL) 32) : (s.setZ v).mem = s.mem := rfl
@[simp] theorem State.setZ_sveEnabled (v : Vector (BitVec s.cfg.VL) 32) : (s.setZ v).sveEnabled = s.sveEnabled := rfl
@[simp] theorem State.setZ_spCheckEnabled (v : Vector (BitVec s.cfg.VL) 32) : (s.setZ v).spCheckEnabled = s.spCheckEnabled := rfl
@[simp] theorem State.setZ_faultMap (v : Vector (BitVec s.cfg.VL) 32) : (s.setZ v).faultMap = s.faultMap := rfl
@[simp] theorem State.setZ_deviceMap (v : Vector (BitVec s.cfg.VL) 32) : (s.setZ v).deviceMap = s.deviceMap := rfl
@[simp] theorem State.setZ_reads (v : Vector (BitVec s.cfg.VL) 32) : (s.setZ v).reads = s.reads := rfl

@[simp] theorem State.setPc_cfg (v : Word) : (s.setPc v).cfg = s.cfg := rfl
@[simp] theorem State.setPc_x (v : Word) : (s.setPc v).x = s.x := rfl
@[simp] theorem State.setPc_sp (v : Word) : (s.setPc v).sp = s.sp := rfl
@[simp] theorem State.setPc_pc (v : Word) : (s.setPc v).pc = v := rfl
@[simp] theorem State.setPc_p (v : Word) : (s.setPc v).p = s.p := rfl
@[simp] theorem State.setPc_z (v : Word) : (s.setPc v).z = s.z := rfl
@[simp] theorem State.setPc_mem (v : Word) : (s.setPc v).mem = s.mem := rfl
@[simp] theorem State.setPc_sveEnabled (v : Word) : (s.setPc v).sveEnabled = s.sveEnabled := rfl
@[simp] theorem State.setPc_spCheckEnabled (v : Word) : (s.setPc v).spCheckEnabled = s.spCheckEnabled := rfl
@[simp] theorem State.setPc_faultMap (v : Word) : (s.setPc v).faultMap = s.faultMap := rfl
@[simp] theorem State.setPc_deviceMap (v : Word) : (s.setPc v).deviceMap = s.deviceMap := rfl
@[simp] theorem State.setPc_reads (v : Word) : (s.setPc v).reads = s.reads := rfl

@[simp] theorem State.logReads_cfg (v : List Word) : (s.logReads v).cfg = s.cfg := rfl
@[simp] theorem State.logReads_x (v : List Word) : (s.logReads v).x = s.x := rfl
@[simp] theorem State.logReads_sp (v : List Word) : (s.logReads v).sp = s.sp := rfl
@[simp] theorem State.logReads_pc (v : List Word) : (s.logReads v).pc = s.pc := rfl
@[simp] theorem State.logReads_p (v : List Word) : (s.logReads v).p = s.p := rfl
@[simp] theorem State.logReads_z (v : List Word) : (s.logReads v).z = s.z := rfl
@[simp] theorem State.logReads_mem (v : List Word) : (s.logReads v).mem = s.mem := rfl
@[simp] theorem State.logReads_sveEnabled (v : List Word) : (s.logReads v).sveEnabled = s.sveEnabled := rfl
@[simp] theorem State.logReads_spCheckEnabled (v : List Word) : (s.logReads v).spCheckEnabled = s.spCheckEnabled := rfl
@[simp] theorem State.logReads_faultMap (v : List Word) : (s.logReads v).faultMap = s.faultMap := rfl
@[simp] theorem State.logReads_deviceMap (v : List Word) : (s.logReads v).deviceMap = s.deviceMap := rfl
@[simp] theorem State.logReads_reads (v : List Word) : (s.logReads v).reads = s.reads ++ v := rfl

@[simp] theorem State.setMem_cfg (v : Memory) : (s.setMem v).cfg = s.cfg := rfl
@[simp] theorem State.setMem_x (v : Memory) : (s.setMem v).x = s.x := rfl
@[simp] theorem State.setMem_sp (v : Memory) : (s.setMem v).sp = s.sp := rfl
@[simp] theorem State.setMem_pc (v : Memory) : (s.setMem v).pc = s.pc := rfl
@[simp] theorem State.setMem_p (v : Memory) : (s.setMem v).p = s.p := rfl
@[simp] theorem State.setMem_z (v : Memory) : (s.setMem v).z = s.z := rfl
@[simp] theorem State.setMem_mem (v : Memory) : (s.setMem v).mem = v := rfl
@[simp] theorem State.setMem_sveEnabled (v : Memory) : (s.setMem v).sveEnabled = s.sveEnabled := rfl
@[simp] theorem State.setMem_spCheckEnabled (v : Memory) : (s.setMem v).spCheckEnabled = s.spCheckEnabled := rfl
@[simp] theorem State.setMem_faultMap (v : Memory) : (s.setMem v).faultMap = s.faultMap := rfl
@[simp] theorem State.setMem_deviceMap (v : Memory) : (s.setMem v).deviceMap = s.deviceMap := rfl
@[simp] theorem State.setMem_reads (v : Memory) : (s.setMem v).reads = s.reads := rfl

@[simp] theorem State.advance_cfg : s.advance.cfg = s.cfg := rfl
@[simp] theorem State.advance_x : s.advance.x = s.x := rfl
@[simp] theorem State.advance_sp : s.advance.sp = s.sp := rfl
@[simp] theorem State.advance_pc : s.advance.pc = addInt s.pc 4 := rfl
@[simp] theorem State.advance_p : s.advance.p = s.p := rfl
@[simp] theorem State.advance_z : s.advance.z = s.z := rfl
@[simp] theorem State.advance_mem : s.advance.mem = s.mem := rfl
@[simp] theorem State.advance_sveEnabled : s.advance.sveEnabled = s.sveEnabled := rfl
@[simp] theorem State.advance_spCheckEnabled : s.advance.spCheckEnabled = s.spCheckEnabled := rfl
@[simp] theorem State.advance_faultMap : s.advance.faultMap = s.faultMap := rfl
@[simp] theorem State.advance_deviceMap : s.advance.deviceMap = s.deviceMap := rfl
@[simp] theorem State.advance_reads : s.advance.reads = s.reads := rfl

/-! ### The readers under the updates -/

@[simp] theorem State.setZ_memByte (v : Vector (BitVec s.cfg.VL) 32) (a : Word) : (s.setZ v).memByte a = s.memByte a := rfl
@[simp] theorem State.setZ_readX (v : Vector (BitVec s.cfg.VL) 32) (n : Fin 31) : (s.setZ v).readX n = s.readX n := rfl
@[simp] theorem State.setZ_readP (v : Vector (BitVec s.cfg.VL) 32) (g : Fin 8) : (s.setZ v).readP g = s.readP g := rfl
@[simp] theorem State.setZ_memFault (v : Vector (BitVec s.cfg.VL) 32) (acc : AccType) (t : Bool) (a : Word) : (s.setZ v).memFault acc t a = s.memFault acc t a := rfl
@[simp] theorem State.setZ_isDevice (v : Vector (BitVec s.cfg.VL) 32) (a : Word) : (s.setZ v).isDevice a = s.isDevice a := rfl
@[simp] theorem State.setZ_baseValue (v : Vector (BitVec s.cfg.VL) 32) (rn : Fin 32) : (s.setZ v).baseValue rn = s.baseValue rn := rfl
@[simp] theorem State.setZ_active (v : Vector (BitVec s.cfg.VL) 32) (g : Fin 8) (e : Nat) : (s.setZ v).active g e = s.active g e := rfl

@[simp] theorem State.setPc_memByte (v : Word) (a : Word) : (s.setPc v).memByte a = s.memByte a := rfl
@[simp] theorem State.setPc_readX (v : Word) (n : Fin 31) : (s.setPc v).readX n = s.readX n := rfl
@[simp] theorem State.setPc_readP (v : Word) (g : Fin 8) : (s.setPc v).readP g = s.readP g := rfl
@[simp] theorem State.setPc_zByte (v : Word) (j : Fin 32) (e : Nat) : (s.setPc v).zByte j e = s.zByte j e := rfl
@[simp] theorem State.setPc_memFault (v : Word) (acc : AccType) (t : Bool) (a : Word) : (s.setPc v).memFault acc t a = s.memFault acc t a := rfl
@[simp] theorem State.setPc_isDevice (v : Word) (a : Word) : (s.setPc v).isDevice a = s.isDevice a := rfl
@[simp] theorem State.setPc_baseValue (v : Word) (rn : Fin 32) : (s.setPc v).baseValue rn = s.baseValue rn := rfl
@[simp] theorem State.setPc_active (v : Word) (g : Fin 8) (e : Nat) : (s.setPc v).active g e = s.active g e := rfl

@[simp] theorem State.logReads_memByte (v : List Word) (a : Word) : (s.logReads v).memByte a = s.memByte a := rfl
@[simp] theorem State.logReads_readX (v : List Word) (n : Fin 31) : (s.logReads v).readX n = s.readX n := rfl
@[simp] theorem State.logReads_readP (v : List Word) (g : Fin 8) : (s.logReads v).readP g = s.readP g := rfl
@[simp] theorem State.logReads_zByte (v : List Word) (j : Fin 32) (e : Nat) : (s.logReads v).zByte j e = s.zByte j e := rfl
@[simp] theorem State.logReads_memFault (v : List Word) (acc : AccType) (t : Bool) (a : Word) : (s.logReads v).memFault acc t a = s.memFault acc t a := rfl
@[simp] theorem State.logReads_isDevice (v : List Word) (a : Word) : (s.logReads v).isDevice a = s.isDevice a := rfl
@[simp] theorem State.logReads_baseValue (v : List Word) (rn : Fin 32) : (s.logReads v).baseValue rn = s.baseValue rn := rfl
@[simp] theorem State.logReads_active (v : List Word) (g : Fin 8) (e : Nat) : (s.logReads v).active g e = s.active g e := rfl

@[simp] theorem State.setMem_readX (v : Memory) (n : Fin 31) : (s.setMem v).readX n = s.readX n := rfl
@[simp] theorem State.setMem_readP (v : Memory) (g : Fin 8) : (s.setMem v).readP g = s.readP g := rfl
@[simp] theorem State.setMem_zByte (v : Memory) (j : Fin 32) (e : Nat) : (s.setMem v).zByte j e = s.zByte j e := rfl
@[simp] theorem State.setMem_memFault (v : Memory) (acc : AccType) (t : Bool) (a : Word) : (s.setMem v).memFault acc t a = s.memFault acc t a := rfl
@[simp] theorem State.setMem_isDevice (v : Memory) (a : Word) : (s.setMem v).isDevice a = s.isDevice a := rfl
@[simp] theorem State.setMem_baseValue (v : Memory) (rn : Fin 32) : (s.setMem v).baseValue rn = s.baseValue rn := rfl
@[simp] theorem State.setMem_active (v : Memory) (g : Fin 8) (e : Nat) : (s.setMem v).active g e = s.active g e := rfl

@[simp] theorem State.advance_memByte (a : Word) : (s.advance).memByte a = s.memByte a := rfl
@[simp] theorem State.advance_readX (n : Fin 31) : (s.advance).readX n = s.readX n := rfl
@[simp] theorem State.advance_readP (g : Fin 8) : (s.advance).readP g = s.readP g := rfl
@[simp] theorem State.advance_zByte (j : Fin 32) (e : Nat) : (s.advance).zByte j e = s.zByte j e := rfl
@[simp] theorem State.advance_memFault (acc : AccType) (t : Bool) (a : Word) : (s.advance).memFault acc t a = s.memFault acc t a := rfl
@[simp] theorem State.advance_isDevice (a : Word) : (s.advance).isDevice a = s.isDevice a := rfl
@[simp] theorem State.advance_baseValue (rn : Fin 32) : (s.advance).baseValue rn = s.baseValue rn := rfl
@[simp] theorem State.advance_active (g : Fin 8) (e : Nat) : (s.advance).active g e = s.active g e := rfl

@[simp] theorem State.setZ_pBit (v : Vector (BitVec s.cfg.VL) 32) (g : Fin 16) (e : Nat) : (s.setZ v).pBit g e = s.pBit g e := rfl
@[simp] theorem State.setPc_pBit (v : Word) (g : Fin 16) (e : Nat) : (s.setPc v).pBit g e = s.pBit g e := rfl
@[simp] theorem State.logReads_pBit (v : List Word) (g : Fin 16) (e : Nat) : (s.logReads v).pBit g e = s.pBit g e := rfl
@[simp] theorem State.setMem_pBit (v : Memory) (g : Fin 16) (e : Nat) : (s.setMem v).pBit g e = s.pBit g e := rfl
@[simp] theorem State.advance_pBit (g : Fin 16) (e : Nat) : (s.advance).pBit g e = s.pBit g e := rfl

/-- The state of a raise is the state the raise is given with. -/
@[simp] theorem raise_eq (f : State → Fault) : raise f s = .fault (f s) := rfl

end Sys2Proof.Machine
end

