-- ==== Sys2Proof/Laws/Ld4b.lean ====
section
/-! SUPPORT. What the loops of LD4B compute, said once: when every active byte can be read, and when one cannot. -/

namespace Sys2Proof.Machine

variable {vl pl : Nat} {s : State} {tag active : Bool} {base index : Word}

/-- What an element receives: the byte at its address, or zero (R86, R87). -/
def loadedByte (s : State) (active : Bool) (a : Word) : Byte := if active then s.memByte a else 0

/-- The addresses read for one element (R44). -/
def structAddrs (active : Bool) (base index : Word) (e : Nat) : List Word :=
  if active then (List.range 4).map (effAddr base index e) else []

theorem memRead_of_none {acc : AccType} {a : Word} (h : s.memFault acc tag a = none) :
    s.memRead acc tag a = .ok (s.memByte a) := by
  simp [State.memRead, h]

theorem memRead_of_some {acc : AccType} {a : Word} {k : FaultKind} (h : s.memFault acc tag a = some k) :
    s.memRead acc tag a = .error k := by
  simp [State.memRead, h]

/-- One pass of the inner loop that does not fault: where the locals stand after it. -/
theorem registerStep_ok {e : Nat} {r : Fin 4} {l : Scratch vl} (he : (e + 1) * 8 ≤ vl)
    (hl : l.addr = effAddr base index e r)
    (h : active = true → s.memFault .normal tag (effAddr base index e r) = none) :
    ∃ l', registerStep s tag active e r l = .ok l' ∧ l'.offset = l.offset ∧ l'.addr = effAddr base index e (r + 1) ∧
      l'.reads = l.reads ++ (if active then [effAddr base index e r] else []) ∧
      ∀ (r' : Fin 4) (e' : Nat), elemGet l'.values[r'] e' 8 =
        if r' = r ∧ e' = e then loadedByte s active (effAddr base index e r) else elemGet l.values[r'] e' 8 := by
  have hset : ∀ (b : Byte) (r' : Fin 4) (e' : Nat),
      elemGet (l.values.set r (elemSet l.values[r] e esize b))[r'] e' 8 =
        if r' = r ∧ e' = e then b else elemGet l.values[r'] e' 8 := by
    intro b r' e'
    by_cases hr : r' = r
    · subst r'; simp [elemGet_elemSet _ _ he]
    · have : r.val ≠ r'.val := fun h => hr (Fin.ext h.symm)
      simp [this, hr]
  have haddr : addInt l.addr mbytes = effAddr base index e (r + 1) := by rw [hl]; exact addInt_effAddr base index e r
  cases active with
  | false => exact ⟨_, rfl, rfl, haddr, by simp, fun r' e' => by simpa [loadedByte] using hset 0#8 r' e'⟩
  | true =>
    have hrun : registerStep s tag true e r l = .ok
        { l with
          values := l.values.set r (elemSet l.values[r] e esize (s.memByte (effAddr base index e r)))
          addr := addInt l.addr mbytes
          reads := l.reads ++ [effAddr base index e r] } := by
      simp only [registerStep, if_true, hl, memRead_of_none (h rfl)]
    exact ⟨_, hrun, rfl, haddr, by simp,
      fun r' e' => by simpa [loadedByte] using hset (s.memByte (effAddr base index e r)) r' e'⟩

/-- One pass of the inner loop that faults. -/
theorem registerStep_error {e : Nat} {r : Fin 4} {l : Scratch vl} {k : FaultKind} {a : Word} (hl : l.addr = a)
    (h : s.memFault .normal tag a = some k) :
    registerStep s tag true e r l = .error { addr := a, e := e, r := r, kind := k, reads := l.reads } := by
  subst a
  simp [registerStep, memRead_of_some h]

/-- One pass of the outer loop that does not fault: where the offset, the reads and the elements stand after it. -/
theorem elementStep_ok (e : Nat) (l : Scratch vl) (he : (e + 1) * 8 ≤ vl) (hoff : l.offset = addInt index (4 * e))
    (h : active = true → ∀ r < 4, s.memFault .normal tag (effAddr base index e r) = none) :
    ∃ l', elementStep s tag active base e l = .ok l' ∧ l'.offset = addInt index (4 * (e + 1)) ∧
      l'.reads = l.reads ++ structAddrs active base index e ∧
      ∀ (r : Fin 4) (e' : Nat), elemGet l'.values[r] e' 8 =
        if e' = e then loadedByte s active (effAddr base index e r) else elemGet l.values[r] e' 8 := by
  have h0 : addInt base (l.offset.toNat * mbytes) = effAddr base index e 0 := by rw [hoff, addInt_base]
  obtain ⟨l1, s1, o1, a1, d1, v1⟩ := registerStep_ok (s := s) (tag := tag) (active := active) (r := 0)
    (l := { l with addr := addInt base (l.offset.toNat * mbytes) }) he h0 (fun ha => h ha 0 (by decide))
  obtain ⟨l2, s2, o2, a2, d2, v2⟩ := registerStep_ok (s := s) (tag := tag) (active := active) (r := 1) he a1
    (fun ha => h ha 1 (by decide))
  obtain ⟨l3, s3, o3, a3, d3, v3⟩ := registerStep_ok (s := s) (tag := tag) (active := active) (r := 2) he a2
    (fun ha => h ha 2 (by decide))
  obtain ⟨l4, s4, o4, a4, d4, v4⟩ := registerStep_ok (s := s) (tag := tag) (active := active) (r := 3) he a3
    (fun ha => h ha 3 (by decide))
  refine ⟨{ l4 with offset := addInt l4.offset nreg }, ?_, ?_, ?_, ?_⟩
  · simp only [elementStep, registerLoop, s1, s2, s3, s4]
  · simp only [o4, o3, o2, o1, hoff, addInt_addInt, Nat.mul_add, nreg]
  · simp only [d4, d3, d2, d1]
    cases active <;> simp [structAddrs, List.range, List.range.loop]
  · intro r e'
    simp only [v4, v3, v2, v1]
    by_cases hee : e' = e
    · match r with
      | 0 => simp [hee]
      | 1 => simp [hee]
      | 2 => simp [hee]
      | 3 => simp [hee]
    · simp [hee]

/-- One pass of the outer loop that faults first at register index `r`: what it is ended with. -/
theorem elementStep_error (e : Nat) (l : Scratch vl) (r : Fin 4) {k : FaultKind} (he : (e + 1) * 8 ≤ vl)
    (hoff : l.offset = addInt index (4 * e))
    (hk : s.memFault .normal tag (effAddr base index e r) = some k)
    (h : ∀ r' < r.val, s.memFault .normal tag (effAddr base index e r') = none) :
    elementStep s tag true base e l = .error
      { addr := effAddr base index e r, e := e, r := r, kind := k
        reads := l.reads ++ (List.range r.val).map (effAddr base index e) } := by
  have h0 : addInt base (l.offset.toNat * mbytes) = effAddr base index e 0 := by rw [hoff, addInt_base]
  have step (r' : Fin 4) (hr' : r' < r) (l : Scratch vl) (hl : l.addr = effAddr base index e r') :
      ∃ l', registerStep s tag true e r' l = .ok l' ∧ l'.addr = effAddr base index e (r' + 1) ∧
        l'.reads = l.reads ++ [effAddr base index e r'] := by
    obtain ⟨l', h1, -, h2, h3, -⟩ := registerStep_ok (s := s) (tag := tag) (active := true) he hl (fun _ => h r' hr')
    exact ⟨l', h1, h2, by simpa using h3⟩
  match r with
  | 0 =>
    simp only [elementStep, registerLoop]
    rw [registerStep_error h0 hk]
    simp
  | 1 =>
    obtain ⟨l1, s1, a1, d1⟩ := step 0 (by decide) { l with addr := addInt base (l.offset.toNat * mbytes) } h0
    simp only [elementStep, registerLoop, s1]
    rw [registerStep_error a1 hk]
    simp [d1, List.range, List.range.loop]
  | 2 =>
    obtain ⟨l1, s1, a1, d1⟩ := step 0 (by decide) { l with addr := addInt base (l.offset.toNat * mbytes) } h0
    obtain ⟨l2, s2, a2, d2⟩ := step 1 (by decide) l1 a1
    simp only [elementStep, registerLoop, s1, s2]
    rw [registerStep_error a2 hk]
    simp [d1, d2, List.range, List.range.loop]
  | 3 =>
    obtain ⟨l1, s1, a1, d1⟩ := step 0 (by decide) { l with addr := addInt base (l.offset.toNat * mbytes) } h0
    obtain ⟨l2, s2, a2, d2⟩ := step 1 (by decide) l1 a1
    obtain ⟨l3, s3, a3, d3⟩ := step 2 (by decide) l2 a2
    simp only [elementStep, registerLoop, s1, s2, s3]
    rw [registerStep_error a3 hk]
    simp [d1, d2, d3, List.range, List.range.loop]

/-- The outer loop over elements `j` to `j + n - 1` when every active byte of them can be read. -/
theorem elementLoop_ok {mask : BitVec pl} (n j : Nat) (l : Scratch vl) (hn : (j + n) * 8 ≤ vl)
    (hoff : l.offset = addInt index (4 * j))
    (h : ∀ e, j ≤ e → e < j + n → elemP mask e esize = true →
      ∀ r < 4, s.memFault .normal tag (effAddr base index e r) = none) :
    ∃ l', elementLoop s tag mask base (List.range' j n) l = .ok l' ∧
      l'.reads = l.reads ++ (List.range' j n).flatMap (fun e => structAddrs (elemP mask e esize) base index e) ∧
      ∀ (r : Fin 4) (e : Nat), elemGet l'.values[r] e 8 =
        if j ≤ e ∧ e < j + n then loadedByte s (elemP mask e esize) (effAddr base index e r)
        else elemGet l.values[r] e 8 := by
  induction n generalizing j l with
  | zero =>
    refine ⟨l, rfl, by simp, fun r e => ?_⟩
    rw [if_neg (by omega)]
  | succ n ih =>
    obtain ⟨l1, hstep, hoff1, hreads1, hval1⟩ := elementStep_ok (s := s) (tag := tag)
      (active := elemP mask j esize) (base := base) j l (by omega) hoff (h j (by omega) (by omega))
    obtain ⟨l2, hloop, hreads2, hval2⟩ := ih (j + 1) l1 (by omega) hoff1
      (fun e h1 h2 => h e (by omega) (by omega))
    refine ⟨l2, ?_, ?_, ?_⟩
    · simp only [List.range'_succ, elementLoop, hstep, hloop]
    · simp only [hreads2, hreads1, List.range'_succ, List.flatMap_cons, List.append_assoc]
    · intro r e
      rw [hval2, hval1]
      by_cases hej : e = j
      · subst e; rw [if_neg (by omega), if_pos rfl, if_pos (by omega)]
      · by_cases hlt : j + 1 ≤ e ∧ e < j + 1 + n
        · rw [if_pos hlt, if_pos (by omega)]
        · rw [if_neg hlt, if_neg hej, if_neg (by omega)]

/-- The outer loop from element `j` when the first byte that faults is byte `r` of element `j + d`. -/
theorem elementLoop_error {mask : BitVec pl} (d n j : Nat) (l : Scratch vl) (r : Fin 4) {k : FaultKind}
    (hd : d < n) (hn : (j + n) * 8 ≤ vl) (hoff : l.offset = addInt index (4 * j))
    (hact : elemP mask (j + d) esize = true)
    (hk : s.memFault .normal tag (effAddr base index (j + d) r) = some k)
    (hbefore : ∀ e, j ≤ e → e < j + d → elemP mask e esize = true →
      ∀ r' < 4, s.memFault .normal tag (effAddr base index e r') = none)
    (hsame : ∀ r' < r.val, s.memFault .normal tag (effAddr base index (j + d) r') = none) :
    elementLoop s tag mask base (List.range' j n) l = .error
      { addr := effAddr base index (j + d) r, e := j + d, r := r, kind := k
        reads := l.reads ++ (List.range' j d).flatMap (fun e => structAddrs (elemP mask e esize) base index e)
          ++ (List.range r.val).map (effAddr base index (j + d)) } := by
  induction d generalizing j l n with
  | zero =>
    obtain ⟨n, rfl⟩ : ∃ m, n = m + 1 := ⟨n - 1, by omega⟩
    simp only [Nat.add_zero] at hact hk hsame ⊢
    simp only [List.range'_succ, elementLoop, hact]
    rw [elementStep_error j l r (by omega) hoff hk hsame]
    simp
  | succ d ih =>
    obtain ⟨n, rfl⟩ : ∃ m, n = m + 1 := ⟨n - 1, by omega⟩
    obtain ⟨l1, hstep, hoff1, hreads1, -⟩ := elementStep_ok (s := s) (tag := tag)
      (active := elemP mask j esize) (base := base) j l (by omega) hoff (hbefore j (by omega) (by omega))
    have hj : j + (d + 1) = j + 1 + d := by omega
    rw [hj] at hact hk hsame ⊢
    simp only [List.range'_succ, elementLoop, hstep]
    rw [ih n (j + 1) l1 (by omega) (by omega) hoff1 hact hk (fun e h1 h2 => hbefore e (by omega) (by omega)) hsame]
    simp only [hreads1, List.flatMap_cons, List.append_assoc]

/-- Either every active byte can be read, or there is a first one that cannot. -/
theorem readable_or_firstFault (pg : Fin 8) (rn : Fin 32) (m : Fin 31) (s : State) :
    ActiveBytesReadable pg rn m s ∨ ∃ e r k, FirstFault pg rn m s e r k := by
  by_cases hall : ActiveBytesReadable pg rn m s
  · exact .inl hall
  · right
    let bad : Nat → Prop := fun e => e < s.cfg.elements ∧ s.active pg e = true ∧
      ∃ r, r < 4 ∧ s.memFault .normal s.cfg.haveMte (s.addrOf rn m e r) ≠ none
    have hbad : ∃ e, bad e := by
      by_contra hno
      refine hall fun e he ha r hr => ?_
      by_contra hne
      exact hno ⟨e, he, ha, r, hr, hne⟩
    classical
    obtain ⟨he, ha, hr⟩ := Nat.find_spec hbad
    obtain ⟨hr4, hne⟩ := Nat.find_spec hr
    obtain ⟨k, hk⟩ := Option.ne_none_iff_exists'.1 hne
    refine ⟨Nat.find hbad, ⟨Nat.find hr, hr4⟩, k, he, ha, hk, ?_, ?_⟩
    · intro e' he' ha' r' hr'
      by_contra hne'
      exact Nat.find_min hbad he' ⟨by omega, ha', r', hr', hne'⟩
    · intro r' hr'
      by_contra hne'
      exact Nat.find_min hr hr' ⟨by simp only at hr'; omega, hne'⟩

end Sys2Proof.Machine
end

