-- ==== Sys2Proof/Laws/Memory.lean ====
section
/-! SUPPORT. The laws of memory: a read after a write, and the canonical form. -/

namespace Sys2Proof.Machine

theorem Memory.wfFrom_cons {low k : Nat} {b : Byte} {m : Memory} :
    Memory.wfFrom low ((k, b) :: m) = true ↔
      low ≤ k ∧ k < 2 ^ 64 ∧ b ≠ Memory.unlisted ∧ Memory.wfFrom (k + 1) m = true := by
  simp [Memory.wfFrom, and_assoc]

theorem Memory.wfFrom_mono {m : Memory} {low low' : Nat} (h : low' ≤ low) (hm : Memory.wfFrom low m = true) :
    Memory.wfFrom low' m = true := by
  cases m with
  | nil => rfl
  | cons c m =>
    obtain ⟨k, b⟩ := c
    rw [Memory.wfFrom_cons] at hm ⊢
    exact ⟨by omega, hm.2⟩

/-- An address below the canonical part reads as unlisted. -/
theorem Memory.read_of_lt {m : Memory} {low a : Nat} (hm : Memory.wfFrom low m = true) (ha : a < low) :
    Memory.read m a = Memory.unlisted := by
  induction m generalizing low with
  | nil => rfl
  | cons c m ih =>
    obtain ⟨k, b⟩ := c
    rw [Memory.wfFrom_cons] at hm
    rw [Memory.read, if_neg (by omega)]
    exact ih hm.2.2.2 (by omega)

theorem Memory.entry_wfFrom {m : Memory} {low a : Nat} {v : Byte} (hl : low ≤ a) (ha : a < 2 ^ 64)
    (hm : Memory.wfFrom (a + 1) m = true) : Memory.wfFrom low (Memory.entry a v m) = true := by
  unfold Memory.entry
  split
  · exact Memory.wfFrom_mono (by omega) hm
  · exact Memory.wfFrom_cons.2 ⟨hl, ha, ‹_›, hm⟩

/-- A write keeps the canonical form. -/
theorem Memory.write_wfFrom {m : Memory} {low a : Nat} (v : Byte) (hl : low ≤ a) (ha : a < 2 ^ 64)
    (hm : Memory.wfFrom low m = true) : Memory.wfFrom low (m.write a v) = true := by
  induction m generalizing low with
  | nil => exact Memory.entry_wfFrom hl ha rfl
  | cons c m ih =>
    obtain ⟨k, b⟩ := c
    have hc := Memory.wfFrom_cons.1 hm
    unfold Memory.write
    split
    · exact Memory.entry_wfFrom hl ha (Memory.wfFrom_cons.2 ⟨by omega, hc.2⟩)
    · split
      · subst a; exact Memory.entry_wfFrom hl ha hc.2.2.2
      · exact Memory.wfFrom_cons.2 ⟨hc.1, hc.2.1, hc.2.2.1, ih (by omega) hc.2.2.2⟩

theorem Memory.write_wf {m : Memory} {a : Nat} (v : Byte) (ha : a < 2 ^ 64) (hm : m.wf = true) : (m.write a v).wf = true :=
  Memory.write_wfFrom v (Nat.zero_le a) ha hm

theorem Memory.writeBytes_wf {m : Memory} {a : Word} (bs : List Byte) (hm : m.wf = true) :
    (m.writeBytes a bs).wf = true := by
  induction bs generalizing m a with
  | nil => exact hm
  | cons b bs ih => exact ih (Memory.write_wf b a.isLt hm)

theorem Memory.read_entry_same {m : Memory} {a : Nat} {v : Byte} (hm : Memory.wfFrom (a + 1) m = true) :
    (Memory.entry a v m).read a = v := by
  unfold Memory.entry
  split
  · rw [Memory.read_of_lt hm (Nat.lt_succ_self a)]; exact Eq.symm ‹_›
  · simp [Memory.read]

theorem Memory.read_entry_other {m : Memory} {a a' : Nat} {v : Byte} (h : a' ≠ a) :
    (Memory.entry a v m).read a' = m.read a' := by
  unfold Memory.entry
  split
  · rfl
  · rw [Memory.read, if_neg (Ne.symm h)]

/-- A write leaves every other address alone. -/
theorem Memory.read_write_other {m : Memory} {a a' : Nat} {v : Byte} (h : a' ≠ a) :
    (m.write a v).read a' = m.read a' := by
  induction m with
  | nil => exact Memory.read_entry_other h
  | cons c m ih =>
    obtain ⟨k, b⟩ := c
    unfold Memory.write
    split
    · exact Memory.read_entry_other h
    · split
      · subst a; rw [Memory.read_entry_other h, Memory.read, if_neg (Ne.symm h)]
      · simp only [Memory.read, ih]

/-- A read after a write to the same address gives the value written. -/
theorem Memory.read_write_same {m : Memory} {low a : Nat} {v : Byte} (hm : Memory.wfFrom low m = true) :
    (m.write a v).read a = v := by
  induction m generalizing low with
  | nil => exact Memory.read_entry_same rfl
  | cons c m ih =>
    obtain ⟨k, b⟩ := c
    have hc := Memory.wfFrom_cons.1 hm
    unfold Memory.write
    split
    · exact Memory.read_entry_same (Memory.wfFrom_cons.2 ⟨by omega, hc.2⟩)
    · split
      · subst a; exact Memory.read_entry_same hc.2.2.2
      · rw [Memory.read, if_neg (by omega)]; exact ih hc.2.2.2

end Sys2Proof.Machine
end

