-- ==== Sys2Proof/Laws/Exec.lean ====
section
/-! SUPPORT. What executing LD4B can do, said once: the inversion lemmas that proofs cite instead of unfolding the meaning. -/

namespace Sys2Proof.Machine

variable {zt rn : Fin 32} {pg : Fin 8} {m : Fin 31} {s t : State}

@[simp] theorem gprIndex_castSucc (m : Fin 31) : gprIndex m.castSucc = some m := by
  simp [gprIndex]

/-- An index field that is not 31 is the field of a general-purpose register. -/
theorem exists_castSucc {rm : Fin 32} (h : rm ≠ 31) : ∃ m : Fin 31, rm = m.castSucc := by
  obtain ⟨m, -, hm⟩ := gprIndex_of_ne h
  exact ⟨m, Fin.ext (by simp [hm])⟩

/-- Where the checks pass, the base operand is the base value. -/
theorem baseOperand_of_checks (h : ChecksPass rn s) : s.baseOperand rn = some (s.baseValue rn) := by
  unfold State.baseOperand State.baseValue
  by_cases hr : rn = 31
  · subst hr
    have : s.checkSPAlignment = true := by
      have := h.2.2 rfl
      cases hc : s.spCheckEnabled <;> simp_all [State.checkSPAlignment]
    simp [this]
  · obtain ⟨n, hn, -⟩ := gprIndex_of_ne hr
    simp [hn]

/-- The locals before the loops. -/
def initScratch (s : State) (m : Fin 31) : Scratch s.cfg.VL :=
  { offset := s.readX m, addr := 0, values := Vector.replicate 4 (0#s.cfg.VL), reads := [] }

/-- Where the checks pass, executing is the loops and the write-back. -/
theorem exec_eq_loop (h : ChecksPass rn s) :
    exec (.ld4b zt pg rn m.castSucc) s =
      match elementLoop s s.cfg.haveMte (s.readP pg) (s.baseValue rn) (List.range s.cfg.elements) (initScratch s m) with
      | .error a => .fault (.dataAbort a.addr a.e a.r a.kind (s.logReads a.reads))
      | .ok l => .next ((s.setZ (writeDests zt l.values s.z)).logReads l.reads).advance := by
  cases hl : elementLoop s s.cfg.haveMte (s.readP pg) (s.baseValue rn) (List.range s.cfg.elements) (initScratch s m) with
  | error a =>
    simp only [initScratch] at hl
    simp only [exec, execLd4b, h.1, Bool.not_true, Bool.false_eq_true, if_false, gprIndex_castSucc,
      State.checkSVEEnabled, h.2.1, baseOperand_of_checks h, raise, hl]
  | ok l =>
    simp only [initScratch] at hl
    simp only [exec, execLd4b, h.1, Bool.not_true, Bool.false_eq_true, if_false, gprIndex_castSucc,
      State.checkSVEEnabled, h.2.1, baseOperand_of_checks h, hl]

theorem elements_mul (s : State) : s.cfg.elements * 8 = s.cfg.VL ∧ s.cfg.VL ≤ 2048 := by
  have := s.cfg.vq.isLt
  simp only [Config.elements, esize, Config.VL]
  omega

@[simp] theorem Fault.withState_state (f : Fault) (s : State) : (f.withState s).state = s := by cases f <;> rfl

@[simp] theorem Fault.withState_self (f : Fault) : f.withState f.state = f := by cases f <;> rfl

/-- The kinds of fault a read of this access type can meet. -/
theorem memFault_canArise {acc : AccType} {tag : Bool} {a : Word} {k : FaultKind} (h : s.memFault acc tag a = some k) :
    FaultKind.canArise k acc = true := by
  simp only [State.memFault, Option.map_eq_some_iff] at h
  obtain ⟨f, hf, rfl⟩ := h
  have := List.find?_some hf
  simp only [FaultRange.applies, Bool.and_eq_true] at this
  exact this.1.1.2

/-- No data read meets an alignment fault (R42). -/
theorem memFault_normal_ne_alignment {tag : Bool} {a : Word} : s.memFault .normal tag a ≠ some .alignment := by
  intro h
  have := memFault_canArise h
  simp [FaultKind.canArise] at this

/-- The next state where every active byte can be read, in terms of the values written back. -/
theorem exec_readable (h : ChecksPass rn s) (hr : ActiveBytesReadable pg rn m s) :
    ∃ values : Vector (BitVec s.cfg.VL) 4,
      exec (.ld4b zt pg rn m.castSucc) s = .next { s with
        z := writeDests zt values s.z
        pc := s.pc + 4#64
        reads := s.reads ++ s.activeAddrs pg rn m s.cfg.elements } ∧
      ∀ (r : Fin 4) (e : Nat), e < s.cfg.elements →
        elemGet values[r] e 8 = if s.active pg e then s.memByte (s.addrOf rn m e r) else 0 := by
  have hE := (elements_mul s).1
  obtain ⟨l, hl, hrd, hv⟩ := elementLoop_ok (s := s) (tag := s.cfg.haveMte) (base := s.baseValue rn)
    (index := s.readX m) (mask := s.readP pg) s.cfg.elements 0 (initScratch s m) (by omega)
    (by simp [initScratch, addInt_zero]) (fun e _ he ha r hr4 => hr e (by omega) ha r hr4)
  refine ⟨l.values, ?_, ?_⟩
  · rw [exec_eq_loop h, List.range_eq_range', hl]
    have hreads : l.reads = s.activeAddrs pg rn m s.cfg.elements := by
      rw [hrd]
      simp [initScratch, State.activeAddrs, List.range_eq_range']
      rfl
    have hpc : addInt s.pc 4 = s.pc + 4#64 := by apply BitVec.eq_of_toNat_eq; simp
    simp only [hreads]
    rw [← hpc]
    rfl
  · intro r e he
    rw [hv, if_pos ⟨by omega, by omega⟩]
    rfl

/-- The fault where there is a first active byte that cannot be read. -/
theorem exec_firstFault (h : ChecksPass rn s) {e : Nat} {r : Fin 4} {k : FaultKind} (hf : FirstFault pg rn m s e r k) :
    exec (.ld4b zt pg rn m.castSucc) s = .fault (.dataAbort (s.addrOf rn m e r) e r k
      { s with reads := s.reads ++ (s.activeAddrs pg rn m e ++ (List.range r.val).map (s.addrOf rn m e)) }) := by
  have hE := (elements_mul s).1
  obtain ⟨he, ha, hk, hb, hs⟩ := hf
  have hloop := elementLoop_error (s := s) (tag := s.cfg.haveMte) (base := s.baseValue rn) (index := s.readX m)
    (mask := s.readP pg) e s.cfg.elements 0 (initScratch s m) r (k := k) he (by omega)
    (by simp [initScratch, addInt_zero]) (by rw [Nat.zero_add]; exact ha) (by rw [Nat.zero_add]; exact hk)
    (fun e' _ he' ha' => hb e' (by omega) ha') (by rw [Nat.zero_add]; exact hs)
  have hreads : (initScratch s m).reads ++
        (List.range' 0 e).flatMap (fun e => structAddrs (elemP (s.readP pg) e esize) (s.baseValue rn) (s.readX m) e) ++
        (List.range r.val).map (effAddr (s.baseValue rn) (s.readX m) e) =
      s.activeAddrs pg rn m e ++ (List.range r.val).map (s.addrOf rn m e) := by
    simp [initScratch, State.activeAddrs, List.range_eq_range']
    rfl
  rw [exec_eq_loop h, List.range_eq_range', hloop]
  simp only [Nat.zero_add]
  rw [hreads]
  rfl

/-- The points before the loops, or the checks pass. -/
theorem exec_cases (zt : Fin 32) (pg : Fin 8) (rn rm : Fin 32) (s : State) :
    (exec (.ld4b zt pg rn rm) s = .fault (.undefined (encode (.ld4b zt pg rn rm)) s) ∧
      (s.cfg.haveSve = false ∨ rm = 31)) ∨
    (exec (.ld4b zt pg rn rm) s = .fault (.sveAccessTrap s) ∧ s.sveEnabled = false) ∨
    (exec (.ld4b zt pg rn rm) s = .fault (.spAlignmentFault s) ∧ ¬ ChecksPass rn s) ∨
    ∃ m : Fin 31, rm = m.castSucc ∧ ChecksPass rn s := by
  by_cases h1 : s.cfg.haveSve = true
  · by_cases h2 : rm = 31
    · left; subst h2; simp [exec, execLd4b, h1, raise]
    · obtain ⟨m, rfl⟩ := exists_castSucc h2
      by_cases h3 : s.sveEnabled = true
      · by_cases h4 : ChecksPass rn s
        · exact .inr (.inr (.inr ⟨m, rfl, h4⟩))
        · right; right; left
          have hbad : rn = 31 ∧ s.spCheckEnabled = true ∧ s.sp.toNat % 16 ≠ 0 := by
            simpa only [ChecksPass, h1, h3, true_and, Classical.not_imp] using h4
          obtain ⟨rfl, h5, h6⟩ := hbad
          refine ⟨?_, h4⟩
          simp [exec, execLd4b, h1, h3, State.checkSVEEnabled, State.baseOperand, State.checkSPAlignment, h5, h6, raise]
      · right; left
        simp [exec, execLd4b, h1, h3, State.checkSVEEnabled, raise]
  · left; simp [exec, execLd4b, h1, raise]

/-- Everything a completing LD4B says. -/
theorem exec_next_inv {rm : Fin 32} (h : exec (.ld4b zt pg rn rm) s = .next t) :
    ∃ m : Fin 31, rm = m.castSucc ∧ ChecksPass rn s ∧ ActiveBytesReadable pg rn m s ∧
      ∃ values : Vector (BitVec s.cfg.VL) 4,
        t = { s with
          z := writeDests zt values s.z
          pc := s.pc + 4#64
          reads := s.reads ++ s.activeAddrs pg rn m s.cfg.elements } ∧
        ∀ (r : Fin 4) (e : Nat), e < s.cfg.elements →
          elemGet values[r] e 8 = if s.active pg e then s.memByte (s.addrOf rn m e r) else 0 := by
  rcases exec_cases zt pg rn rm s with ⟨h', -⟩ | ⟨h', -⟩ | ⟨h', -⟩ | ⟨m, rfl, hc⟩
  · rw [h] at h'; cases h'
  · rw [h] at h'; cases h'
  · rw [h] at h'; cases h'
  · rcases readable_or_firstFault pg rn m s with hr | ⟨e, r, k, hf⟩
    · obtain ⟨v, h1, h2⟩ := exec_readable (zt := zt) hc hr
      rw [h] at h1
      exact ⟨m, rfl, hc, hr, v, by cases h1; rfl, h2⟩
    · rw [exec_firstFault hc hf] at h; cases h

/-- Everything a data abort of LD4B says. -/
theorem exec_dataAbort_inv {a : Word} {e : Nat} {r : Fin 4} {k : FaultKind}
    (h : exec (.ld4b zt pg rn m.castSucc) s = .fault (.dataAbort a e r k t)) :
    ChecksPass rn s ∧ FirstFault pg rn m s e r k ∧ a = s.addrOf rn m e r ∧
      t = { s with reads := s.reads ++ (s.activeAddrs pg rn m e ++ (List.range r.val).map (s.addrOf rn m e)) } := by
  rcases exec_cases zt pg rn m.castSucc s with ⟨h', -⟩ | ⟨h', -⟩ | ⟨h', -⟩ | ⟨m', hm, hc⟩
  · rw [h] at h'; cases h'
  · rw [h] at h'; cases h'
  · rw [h] at h'; cases h'
  · obtain rfl := Fin.castSucc_injective _ hm
    rcases readable_or_firstFault pg rn m s with hr | ⟨e', r', k', hf⟩
    · obtain ⟨v, h1, -⟩ := exec_readable (zt := zt) hc hr
      rw [h] at h1; cases h1
    · rw [exec_firstFault hc hf] at h
      cases h
      exact ⟨hc, hf, rfl, rfl⟩

/-- A step that answers a next state ran an instruction at an aligned `pc`. -/
theorem step_next_inv (h : step s = .next t) : s.PcAligned ∧ ∃ i, exec i s = .next t := by
  unfold step at h
  split at h
  · cases h
  · cases h
  · rename_i w hw
    refine ⟨?_, ?_⟩
    · unfold State.fetch at hw
      split at hw
      · cases hw
      · rename_i hh; simpa using hh
    · split at h
      · exact ⟨_, h⟩
      · cases h
      · cases h
      · cases h

/-- The addresses of distinct bytes of one execution are distinct (R44). -/
theorem addrOf_injective {e r e' r' : Nat} (he : e < s.cfg.elements) (hr : r < 4) (he' : e' < s.cfg.elements) (hr' : r' < 4)
    (h : s.addrOf rn m e r = s.addrOf rn m e' r') : e = e' ∧ r = r' := by
  have := elements_mul s
  have := congrArg BitVec.toNat h
  simp only [State.addrOf, toNat_effAddr] at this
  omega

theorem mem_activeAddrs {n : Nat} {a : Word} :
    a ∈ s.activeAddrs pg rn m n ↔ ∃ e < n, s.active pg e = true ∧ ∃ r < 4, a = s.addrOf rn m e r := by
  simp only [State.activeAddrs, List.mem_flatMap, List.mem_range]
  constructor
  · rintro ⟨e, he, h⟩
    split at h
    · simp only [List.mem_map, List.mem_range] at h
      obtain ⟨r, hr, rfl⟩ := h
      exact ⟨e, he, ‹_›, r, hr, rfl⟩
    · simp at h
  · rintro ⟨e, he, ha, r, hr, rfl⟩
    refine ⟨e, he, ?_⟩
    rw [if_pos ha]
    simp only [List.mem_map, List.mem_range]
    exact ⟨r, hr, rfl⟩

end Sys2Proof.Machine
end

