-- ==== Sys2Proof/Laws/PerInstr.lean ====
section
/-! SUPPORT. The statements made of every instruction as syntax, one lemma per constructor. -/

namespace Sys2Proof.Laws

/-- The instruction's word holds the fixed bits of its row, in the boxes of the diagram (R61). -/
def FixedBits.Statement (i : Instr) : Prop :=
  (encode i).extractLsb' 21 11 = 0b10100100011#11 ∧ (encode i).extractLsb' 13 3 = 0b110#3

theorem FixedBits.ld4b (zt : Fin 32) (pg : Fin 8) (rn rm : Fin 32) : FixedBits.Statement (.ld4b zt pg rn rm) := by
  constructor
  · apply BitVec.eq_of_getLsbD_eq
    intro i hi
    rw [BitVec.getLsbD_extractLsb', encode_getLsbD]
    interval_cases i <;> simp
  · apply BitVec.eq_of_getLsbD_eq
    intro i hi
    rw [BitVec.getLsbD_extractLsb', encode_getLsbD]
    interval_cases i <;> simp

end Sys2Proof.Laws
end

