-- ==== Sys2Proof/Tests/Slice0.lean ====
section
/-! SUPPORT. The model's own tests. Every expected result is a vector of 95_test_vectors.md or is written out from an encoding rule; each test's comment names it. After them, for each statement with hypotheses, a state and operands that meet them. -/

open Sys2Proof Sys2Proof.Machine

namespace Sys2Proof.Tests

/-! ### Well-formedness: each check refuses an ill-formed term -/

/-- R69. -/
theorem test_wf_index_31 : (Instr.ld4b 0 0 0 31).wf = false := by decide
/-- E6: the largest valid word's operands. -/
theorem test_wf_accepts : (Instr.ld4b 31 7 31 30).wf = true := by decide
/-- R74: a list that is not consecutive, its first number out of range, or of three registers. -/
theorem test_wf_asm_list : (⟨[0, 1, 2, 4], 0, .x 0, .x 1⟩ : AsmStatement).wf = false ∧
    (⟨[32, 1, 2, 3], 0, .x 0, .x 1⟩ : AsmStatement).wf = false ∧
    (⟨[0, 1, 2], 0, .x 0, .x 1⟩ : AsmStatement).wf = false := by decide
/-- R74: a predicate above `P7`. -/
theorem test_wf_asm_predicate : (⟨[0, 1, 2, 3], 8, .x 0, .x 1⟩ : AsmStatement).wf = false := by decide
/-- R74: the base. -/
theorem test_wf_asm_base : (⟨[0, 1, 2, 3], 0, .xzr, .x 1⟩ : AsmStatement).wf = false ∧
    (⟨[0, 1, 2, 3], 0, .x 31, .x 1⟩ : AsmStatement).wf = false := by decide
/-- R74: the index. -/
theorem test_wf_asm_index : (⟨[0, 1, 2, 3], 0, .x 0, .xzr⟩ : AsmStatement).wf = false ∧
    (⟨[0, 1, 2, 3], 0, .x 0, .sp⟩ : AsmStatement).wf = false ∧
    (⟨[0, 1, 2, 3], 0, .x 0, .x 31⟩ : AsmStatement).wf = false := by decide
/-- R74: a list that wraps is well formed and encodes `Zt = 30`. -/
theorem test_asm_wraps : assemble ⟨[30, 31, 0, 1], 7, .sp, .x 2⟩ = some (.ld4b 30 7 31 2) := by decide
/-- E4: the text of the statement, the braces written by their codes. -/
theorem test_asm_text : (disassemble (.ld4b 30 7 31 2)).map AsmStatement.text =
    some ("LD4B " ++ String.singleton (Char.ofNat 123) ++ " Z30.B, Z31.B, Z0.B, Z1.B " ++ String.singleton (Char.ofNat 125)
      ++ ", P7/Z, [SP, X2]") := by decide +kernel

/-! ### Decoding: words written out from the diagram, S1, as `fixed Rm 110 Pg Rn Zt` -/

/-- E2. -/
theorem test_decode_E2 : decodeWord true 0b10100100011_00001_110_000_00000_00000#32 = .instr (.ld4b 0 0 0 1) := by decide
/-- E7. -/
theorem test_decode_E7 : decodeBytes true [0x28#8, 0xC5#8, 0x69#8, 0xA4#8] = .instr (.ld4b 8 1 9 9) := by decide
/-- E8. -/
theorem test_decode_E8 : decodeWord true 0xA475D68C#32 = .instr (.ld4b 12 5 20 21) := by decide
/-- E9, encoded. -/
theorem test_encode_E9 : encode (.ld4b 16 4 1 2) = 0xA462D030#32 := by decide
/-- E10. -/
theorem test_decode_E10 : decodeWord true 0xA47FC000#32 = .undefined 0xA47FC000#32 := by decide
/-- V11. -/
theorem test_decode_V11 : decodeWord false 0xA461C000#32 = .undefined 0xA461C000#32 := by decide
/-- The word E2 with bit 24 flipped. -/
theorem test_decode_flip : decodeWord true 0xA561C000#32 = .outOfScope 0xA561C000#32 := by decide
/-- Fewer than four bytes hold no word. -/
theorem test_decode_truncated : decodeBytes true [0#8, 0xC0#8, 0x61#8] = .truncated := by decide
/-- E1, the smallest valid word, as the opcode table's row. -/
theorem test_table_word : decodeTableWord 32 0xA460C000 = some (.ld4b 0 0 0 0) := by decide

/-! ### Execution -/

/-- Bytes `v`, `v + 1`, … at addresses `a`, `a + 1`, …, `n` of them, none zero. -/
def ramp (a v n : Nat) : Memory := (List.range n).map fun i => (a + i, BitVec.ofNat 8 (v + i))

/-- V4 at `pc = 0x8000`: `SP = 0x1000`, `X2 = 0x10`, `P7 = 0xA005`, the bytes of M1 that its window holds, every bit of every
`Z` set. -/
def stateV4 : State :=
  ({ State.reset with
      x := State.reset.x.set 2 0x10
      sp := 0x1000
      pc := 0x8000
      p := State.reset.p.set 7 0xA005
      z := Vector.replicate 32 (BitVec.allOnes 128)
      mem := ramp 0x1010 0x10 64 } : State).withFetchWord 32 0xA462DFFE

/-- V8 (d): M2's faults, `X3 = 0x2000`, `P1 = 0x801F`. -/
def stateV8 : State :=
  { State.reset with
    x := State.reset.x.set 3 0x2000
    p := State.reset.p.set 1 0x801F
    mem := ramp 0x2000 0x11 22
    faultMap := [{ range := ⟨0x2016, 0xFFFFFFFFFFFFFFFF⟩, acc := .normal, tag := .always, kind := .translation }] }

/-- A register's elements, element 0 first. -/
def elements (s : State) (j : Fin 32) : List Nat := (List.range s.cfg.elements).map fun e => (s.zByte j e).toNat

/-- What a test sees of an outcome: the elements of some registers and `pc`, or the abort's address, element number,
register index and kind. -/
def seen (o : Out) (js : List (Fin 32)) : Option (List (List Nat) × Word) × Option (Word × Nat × Nat × FaultKind) :=
  match o with
  | .next t => (some (js.map (elements t), t.pc), none)
  | .fault (.dataAbort a e r k _) => (none, some (a, e, r.val, k))
  | _ => (none, none)

/-- V4, by one step: the list wraps, the base is `SP`, some elements active; `Z2` and `Z29` are untouched. -/
theorem test_step_V4 : seen (step stateV4) [30, 31, 0, 1, 2, 29] =
    (some ([[0x10, 0, 0x18, 0, 0, 0, 0, 0, 0, 0, 0, 0, 0, 0x44, 0, 0x4C],
            [0x11, 0, 0x19, 0, 0, 0, 0, 0, 0, 0, 0, 0, 0, 0x45, 0, 0x4D],
            [0x12, 0, 0x1A, 0, 0, 0, 0, 0, 0, 0, 0, 0, 0, 0x46, 0, 0x4E],
            [0x13, 0, 0x1B, 0, 0, 0, 0, 0, 0, 0, 0, 0, 0, 0x47, 0, 0x4F],
            List.replicate 16 0xFF, List.replicate 16 0xFF], 0x8004#64), none) := by decide +kernel

/-- V8 (d): elements 5 to 14 are inactive and their faulting bytes harmless; element 15 faults. -/
theorem test_exec_V8 : seen (exec (.ld4b 8 1 3 4) stateV8) [] = (none, some (0x203C#64, 15, 0, .translation)) := by
  decide +kernel

/-! ### Witnesses: the hypotheses of each statement are met -/

/-- The outcome is a next state. -/
def isNext : Out → Bool
  | .next _ => true
  | _ => false

theorem exists_next {o : Out} (h : isNext o = true) : ∃ t, o = .next t := by
  cases o with
  | next t => exact ⟨t, rfl⟩
  | fault f => cases h
  | refused r => cases h

/-- All elements of every predicate active. -/
def allActive (s : State) : State := { s with p := Vector.replicate 16 (BitVec.allOnes _) }

/-- At this state, with the index registers `X0` to `X30` named `m`, the checks pass and the active bytes can be read: a
base in `SP`, a base in a register, and all elements active. -/
theorem witness_Ld4bCompletesWithDeinterleavedBytes :
    (ChecksPass 31 stateV4 ∧ ActiveBytesReadable 7 31 2 stateV4) ∧
    (ChecksPass 3 stateV8 ∧ ActiveBytesReadable 2 3 4 stateV8) ∧
    (ChecksPass 31 (allActive stateV4) ∧ ActiveBytesReadable 7 31 30 (allActive stateV4)) := by decide +kernel

theorem stateV4_next : ∃ t, exec (.ld4b 30 7 31 2) stateV4 = .next t := exists_next (by decide +kernel)

theorem stateV4_step_next : ∃ t, step stateV4 = .next t := exists_next (by decide +kernel)

theorem stateV8_aborts : ∃ t, exec (.ld4b 8 1 3 4) stateV8 = .fault (.dataAbort 0x203C#64 15 0 .translation t) :=
  ⟨_, exec_firstFault (m := 4) (s := stateV8) (rn := 3) (pg := 1) (e := 15) (r := 0) (k := .translation) (by decide +kernel)
    (by decide +kernel)⟩

theorem witness_DecodeOfEncodeIsTheInstruction : (Instr.ld4b 31 7 31 30).WF ∧ (Instr.ld4b 0 0 0 0).WF := by decide

theorem witness_DecodedWordIsItsEncoding : decodeWord true 0xA47EDFFF#32 = .instr (.ld4b 31 7 31 30) := by decide

theorem witness_FlippedFixedBitIsOutOfScope : 31 ∈ [13, 14, 15, 21, 22, 23, 24, 25, 26, 27, 28, 29, 30, 31] := by decide

/-- A state that fetches the word `w`. -/
theorem fetch_withFetchWord_V8 :
    (stateV8.withFetchWord 32 0xA47FDBF4).fetch = .word 0xA47FDBF4#32 ∧
    (stateV8.withFetchWord 32 0xA561C000).fetch = .word 0xA561C000#32 := by decide +kernel

theorem witness_IndexField31IsUndefined :
    0xA47FDBF4#32 &&& 0xFFE0E000#32 = 0xA460C000#32 ∧ (0xA47FDBF4#32).extractLsb' 16 5 = 0b11111#5 ∧
      ∃ s : State, s.fetch = .word 0xA47FDBF4#32 := ⟨by decide, by decide, _, fetch_withFetchWord_V8.1⟩

theorem witness_WithoutSveEveryMatchingWordIsUndefined :
    0xA461C000#32 &&& 0xFFE0E000#32 = 0xA460C000#32 ∧
      ∃ s : State, s.cfg.haveSve = false ∧ s.fetch = .word 0xA461C000#32 :=
  ⟨by decide, State.withFetchWord { State.reset with cfg := ⟨0, false, false⟩ } 32 0xA461C000, by decide +kernel,
    by decide +kernel⟩

theorem witness_AssembleOfDisassembleIsTheInstruction : (Instr.ld4b 30 7 31 2).WF := by decide

theorem witness_ExactlyWellFormedStatementsAssemble :
    assemble ⟨[30, 31, 0, 1], 7, .sp, .x 2⟩ = some (.ld4b 30 7 31 2) := by decide

theorem witness_StepRunsTheDecodedInstruction :
    stateV4.PcAligned ∧ (∀ k < 4, stateV4.memFault .ifetch false (addInt stateV4.pc k) = none) ∧
      decodeBytes stateV4.cfg.haveSve ((List.range 4).map fun k => stateV4.memByte (addInt stateV4.pc k)) =
        .instr (.ld4b 30 7 31 2) := by decide +kernel

/-- A state whose fetch faults at byte `k` of `pc = 0`, and not before. -/
def fetchFaulting (k : Nat) : State :=
  { State.reset with faultMap := [{ range := ⟨BitVec.ofNat 64 k, 3⟩, acc := .ifetch, tag := .always, kind := .permission }] }

/-- One witness for each clause: a misaligned `pc`; a fault at the first and at the last byte; a word outside the spec. -/
theorem witness_StepStopsBeforeDecode :
    (¬ (stateV8.setPc 2).PcAligned) ∧
    ((fetchFaulting 0).PcAligned ∧ (fetchFaulting 0).memFault .ifetch false (addInt (fetchFaulting 0).pc 0) = some .permission) ∧
    ((fetchFaulting 3).PcAligned ∧ (fetchFaulting 3).memFault .ifetch false (addInt (fetchFaulting 3).pc 3) = some .permission ∧
      ∀ k' < 3, (fetchFaulting 3).memFault .ifetch false (addInt (fetchFaulting 3).pc k') = none) ∧
    ((stateV8.withFetchWord 32 0xA561C000).fetch = .word 0xA561C000#32 ∧ 0xA561C000#32 &&& 0xFFE0E000#32 ≠ 0xA460C000#32) := by
  decide +kernel

theorem witness_StoredWordIsTheOneRun :
    (Instr.ld4b 30 7 31 2).WF ∧ stateV4.Inv ∧ stateV4.cfg.haveSve = true ∧
      ∀ k < 4, stateV4.memFault .ifetch false (addInt stateV4.pc k) = none := by decide +kernel

/-- One witness for each of the five points. -/
theorem witness_ExceptionsInPseudocodeOrder :
    (∃ s : State, s.cfg.haveSve = false) ∧
    (stateV4.cfg.haveSve = true ∧ (31 : Fin 32) = 31) ∧
    (∃ s : State, s.cfg.haveSve = true ∧ (30 : Fin 32) ≠ 31 ∧ s.sveEnabled = false) ∧
    (∃ s : State, s.cfg.haveSve = true ∧ (30 : Fin 32) ≠ 31 ∧ s.sveEnabled = true ∧ s.spCheckEnabled = true ∧
      s.sp.toNat % 16 ≠ 0) ∧
    (ChecksPass 3 stateV8 ∧ FirstFault 1 3 4 stateV8 15 0 .translation) :=
  ⟨⟨{ State.reset with cfg := ⟨0, false, false⟩ }, by decide +kernel⟩, by decide +kernel,
    ⟨{ State.reset with sveEnabled := false }, by decide +kernel⟩, ⟨{ State.reset with sp := 0x1008 }, by decide +kernel⟩,
    by decide +kernel⟩

theorem witness_RaiseLeavesTheStateUnchanged :
    (∃ s f, step s = .fault f) ∧ ∃ t, exec (.ld4b 8 1 3 (Fin.castSucc 4)) stateV8 =
      .fault (.dataAbort 0x203C#64 15 0 .translation t) := by
  refine ⟨⟨fetchFaulting 0, .fetchFault 0 .permission (fetchFaulting 0), ?_⟩, stateV8_aborts⟩
  have h : (fetchFaulting 0).fetch = .faulted 0 .permission := by decide +kernel
  simp [step, h]

/-- The first and the last element active, the last register index; the completing and the aborting execution. -/
theorem witness_ActiveElementReceivesItsByte :
    (0 < stateV4.cfg.elements ∧ stateV4.active 7 0 = true ∧ 15 < stateV4.cfg.elements ∧ stateV4.active 7 15 = true ∧
      ∃ t, exec (.ld4b 30 7 31 (Fin.castSucc 2)) stateV4 = .next t) ∧
    (15 < stateV8.cfg.elements ∧ stateV8.active 1 15 = true ∧ ChecksPass 3 stateV8 ∧
      stateV8.memFault .normal stateV8.cfg.haveMte (effAddr (stateV8.baseValue 3) (stateV8.readX 4) 15 3) = some .translation) :=
  ⟨⟨by decide +kernel, by decide +kernel, by decide +kernel, by decide +kernel, stateV4_next⟩, by decide +kernel⟩

/-- Element 1 is inactive and element 15 active in both; the completing and the aborting execution. -/
theorem witness_InactiveElementIsZeroedUnread :
    (1 < stateV4.cfg.elements ∧ stateV4.active 7 1 = false ∧ stateV4.active 7 15 = true ∧
      ∃ t, exec (.ld4b 30 7 31 (Fin.castSucc 2)) stateV4 = .next t) ∧
    (14 < stateV8.cfg.elements ∧ stateV8.active 1 14 = false ∧
      ∃ t, exec (.ld4b 8 1 3 (Fin.castSucc 4)) stateV8 = .fault (.dataAbort 0x203C#64 15 0 .translation t)) :=
  ⟨⟨by decide +kernel, by decide +kernel, by decide +kernel, stateV4_next⟩, by decide +kernel, by decide +kernel,
    stateV8_aborts⟩

theorem witness_NoActiveElementReadsNothing : ChecksPass 31 stateV4 ∧ stateV4.readP 6 = 0 := by decide +kernel

theorem witness_ReadsFourBytesPerActiveElement :
    ∃ t, exec (.ld4b 30 7 31 (Fin.castSucc 2)) stateV4 = .next t := stateV4_next

/-- With a Device range over an active structure and over an inactive one. -/
theorem witness_DeviceMemoryReadOncePerActiveByte :
    let s : State := { stateV4 with deviceMap := [⟨0x1010, 0x1017⟩] }
    (∃ t, exec (.ld4b 30 7 31 (Fin.castSucc 2)) s = .next t) ∧ s.isDevice 0x1013#64 = true ∧ s.active 7 0 = true ∧
      s.isDevice 0x1014#64 = true ∧ s.active 7 1 = false :=
  ⟨exists_next (by decide +kernel), by decide +kernel, by decide +kernel, by decide +kernel, by decide +kernel⟩

theorem witness_Ld4bFrame :
    (∃ t, exec (.ld4b 30 7 31 2) stateV4 = .next t) ∧ ∀ r < 4, (2 : Fin 32).val ≠ ((30 : Fin 32).val + r) % 32 :=
  ⟨stateV4_next, by decide⟩

/-- The second state differs in `pc`, in another general-purpose register, in the vector file and in other memory. -/
theorem witness_ResultDependsOnlyOnInputs :
    let s' : State := { stateV4 with
      pc := 0x4, x := stateV4.x.set 5 7, z := Vector.replicate 32 0, mem := ramp 0x1010 0x10 65, reads := [9] }
    (∃ t, exec (.ld4b 30 7 31 (Fin.castSucc 2)) stateV4 = .next t) ∧ s'.cfg.vq = stateV4.cfg.vq ∧
      s'.baseValue 31 = stateV4.baseValue 31 ∧ s'.readX 2 = stateV4.readX 2 ∧
      (∀ e < stateV4.cfg.elements, s'.active 7 e = stateV4.active 7 e) ∧
      (∀ e < stateV4.cfg.elements, stateV4.active 7 e = true → ∀ r < 4,
        s'.memByte (stateV4.addrOf 31 2 e r) = stateV4.memByte (stateV4.addrOf 31 2 e r)) ∧
      ChecksPass 31 s' ∧ ActiveBytesReadable 7 31 2 s' :=
  ⟨stateV4_next, by decide +kernel⟩

theorem witness_SecondExecutionGivesTheSameState : ∃ t, exec (.ld4b 30 7 31 2) stateV4 = .next t := stateV4_next

theorem witness_ReinterleavingReproducesMemory :
    (∃ t, exec (.ld4b 30 7 31 (Fin.castSucc 2)) (allActive stateV4) = .next t) ∧
      (∀ e < (allActive stateV4).cfg.elements, (allActive stateV4).active 7 e = true) ∧
      63 < (allActive stateV4).cfg.VL / 2 :=
  ⟨exists_next (by decide +kernel), by decide +kernel, by decide +kernel⟩

/-- A map with an entry that looks at the indication only for fetches. -/
theorem witness_TaggingActsOnlyThroughMemFault :
    let s : State := { stateV4 with faultMap := stateV8.faultMap ++
      [{ range := ⟨0, 1⟩, acc := .ifetch, tag := .whenTagChecked, kind := .tagCheck }] }
    (∀ f ∈ s.faultMap, f.acc = .normal → f.tag = .always) ∧ ∃ t, exec (.ld4b 30 7 31 2) s = .next t :=
  ⟨by decide +kernel, exists_next (by decide +kernel)⟩

theorem witness_StepKeepsTheInvariant : stateV4.Inv ∧ ∃ t, step stateV4 = .next t := ⟨by decide +kernel, stateV4_step_next⟩

theorem witness_StepChangesOnlyFourVectorRegistersAndPc :
    (∃ t, step stateV4 = .next t) ∧ notDest 30 2 := ⟨stateV4_step_next, by unfold notDest; decide⟩

theorem witness_RunsAreSequential : ∃ t, run 1 stateV4 = .next t := by
  obtain ⟨t, h⟩ := stateV4_step_next
  exact ⟨t, by simp [run, h]⟩

/-- The first clause holds of any operands and the second has a word; an `Rn` of 31 and one below it have statements. -/
theorem witness_EncodedWordIsTheDiagram :
    ((0xA47FDBF4#32).extractLsb' 25 7 = 0b1010010#7 ∧ (0xA47FDBF4#32).extractLsb' 24 1 = 0b0#1 ∧
      (0xA47FDBF4#32).extractLsb' 23 1 = 0b0#1 ∧ (0xA47FDBF4#32).extractLsb' 21 2 = 0b11#2 ∧
      (0xA47FDBF4#32).extractLsb' 13 3 = 0b110#3) ∧
    (∃ a, disassemble (.ld4b 30 7 31 2) = some a) ∧ ∃ a, disassemble (.ld4b 30 7 30 2) = some a :=
  ⟨by decide, ⟨_, rfl⟩, ⟨_, rfl⟩⟩

/-- Every address in an entry of the kind `alignment` for data reads, and an odd base. -/
theorem witness_NoAlignmentFaultOnData :
    let s : State := { stateV4 with
      x := stateV4.x.set 3 0x1001
      faultMap := [{ range := ⟨0, 0xFFFFFFFFFFFFFFFF⟩, acc := .normal, tag := .always, kind := .alignment }] }
    (∀ f ∈ s.faultMap, f.acc = .normal → f.kind = .alignment) ∧ ChecksPass 3 s ∧ s.baseValue 3 = 0x1001#64 := by
  decide +kernel

/-- A list that wraps, with a register just below it and one just above it, and the last list that does not wrap. -/
theorem witness_DestinationsAreConsecutiveModulo32 :
    (2 : Fin 32) ≠ 31 ∧ (∃ t, exec (.ld4b 30 7 31 2) stateV4 = .next t) ∧ (∃ t, exec (.ld4b 28 7 31 2) stateV4 = .next t) ∧
      (∀ r < 4, (29 : Fin 32).val ≠ ((30 : Fin 32).val + r) % 32) ∧ (∀ r < 4, (2 : Fin 32).val ≠ ((30 : Fin 32).val + r) % 32) ∧
      ∀ r < 4, (0 : Fin 32).val ≠ ((28 : Fin 32).val + r) % 32 :=
  ⟨by decide, stateV4_next, exists_next (by decide +kernel), by decide, by decide, by decide⟩

/-- A next state and a raise, each with a predicate file that differs in the register beside the governing one. -/
theorem witness_NoPredicateWrittenOnlyTheGoverningOneRead :
    ((∃ t, exec (.ld4b 30 7 31 2) stateV4 = .next t) ∧
      ∃ p : Vector (BitVec stateV4.cfg.PL) 16, p[7] = stateV4.p[7] ∧ p[8] ≠ stateV4.p[8]) ∧
    ((∃ f, exec (.ld4b 8 1 3 4) stateV8 = .fault f) ∧
      ∃ p : Vector (BitVec stateV8.cfg.PL) 16, p[1] = stateV8.p[1] ∧ p[0] ≠ stateV8.p[0]) :=
  ⟨⟨stateV4_next, stateV4.p.set 8 1, by decide +kernel⟩,
    ⟨⟨_, stateV8_aborts.choose_spec⟩, stateV8.p.set 0 1, by decide +kernel⟩⟩

end Sys2Proof.Tests
end

section
/-! The outcomes of executing an instruction (R17, R101). -/

namespace Sys2Proof.Machine

/-- Once the checks pass, the active bytes alone decide: all can be read, or the first that cannot aborts. -/
theorem exec_next_or_dataAbort {rn : Fin 32} {s : State} (zt : Fin 32) (pg : Fin 8) (m : Fin 31) (h : ChecksPass rn s) :
    (∃ t, exec (.ld4b zt pg rn m.castSucc) s = .next t) ∨
      ∃ a e r k t, exec (.ld4b zt pg rn m.castSucc) s = .fault (.dataAbort a e r k t) := by
  rcases readable_or_firstFault pg rn m s with hr | ⟨e, r, k, hf⟩
  · obtain ⟨_, hnext, -⟩ := exec_readable (zt := zt) h hr
    exact .inl ⟨_, hnext⟩
  · exact .inr ⟨_, e, r, k, _, exec_firstFault h hf⟩

/-- Settles O17: a raise before the loops, or the checks pass and the active bytes decide. -/
theorem execCompletesOrRaises : Obligations.ExecCompletesOrRaises := by
  rintro ⟨zt, pg, rn, rm⟩ s
  rcases exec_cases zt pg rn rm s with ⟨hundef, -⟩ | ⟨htrap, -⟩ | ⟨hsp, -⟩ | ⟨m, rfl, hchecks⟩
  · exact .inr (.inl ⟨_, hundef⟩)
  · exact .inr (.inr (.inl htrap))
  · exact .inr (.inr (.inr (.inl hsp)))
  · rcases exec_next_or_dataAbort zt pg m hchecks with hnext | habort
    · exact .inl hnext
    · exact .inr (.inr (.inr (.inr habort)))

end Sys2Proof.Machine
end

section
/-! What a completing instruction and a completing step leave unchanged, and what their result depends on. -/

namespace Sys2Proof.Machine

variable {zt rn : Fin 32} {pg : Fin 8} {m : Fin 31} {s t : State}

/-- Settles O30: an empty memory lists nothing that could break the canonical form, and `pc` is 0. -/
theorem resetHasTheInvariant : Obligations.ResetHasTheInvariant := ⟨rfl, rfl⟩

/-- Settles O32: a completing step ran one LD4B, which writes back to the four registers of its list. -/
theorem stepChangesOnlyFourVectorRegistersAndPc : Obligations.StepChangesOnlyFourVectorRegistersAndPc := by
  intro s t hstep
  obtain ⟨-, ⟨zt, pg, rn, rm⟩, hexec⟩ := step_next_inv hstep
  obtain ⟨m, -, -, -, values, ht, -⟩ := exec_next_inv hexec
  exact ⟨zt, writeDests zt values s.z, _, ht, fun j hj => writeDests_other zt j values s.z hj⟩

/-- Settles O31: a step leaves memory alone, and four more than a multiple of 4 is one, also past the end of the address
space, whose size is a multiple of 4. -/
theorem stepKeepsTheInvariant : Obligations.StepKeepsTheInvariant := by
  rintro s t ⟨hmem, hpc⟩ hstep
  obtain ⟨zt, z, new, rfl, -⟩ := stepChangesOnlyFourVectorRegistersAndPc s t hstep
  have hnext : (s.pc + 4#64).toNat % 4 = 0 := by
    simp only [State.PcAligned] at hpc
    rw [BitVec.toNat_add, BitVec.toNat_ofNat]
    omega
  exact ⟨hmem, hnext⟩

/-- A register whose number is none of the four listed is no destination. -/
theorem notDest_of_val_ne {j : Fin 32} (h : ∀ r < 4, j.val ≠ (zt.val + r) % 32) : notDest zt j :=
  fun r hr => h r r.isLt (congrArg Fin.val hr)

/-- Settles O24: the next state is the state before but for `pc`, the record of reads and the write-back. -/
theorem ld4bFrame : Obligations.Ld4bFrame := by
  intro zt pg rn rm s t hexec
  obtain ⟨m, -, -, -, values, rfl, -⟩ := exec_next_inv hexec
  refine ⟨fun _ => rfl, rfl, fun _ _ => rfl, fun _ => rfl, rfl, rfl, rfl, rfl, rfl, rfl, fun j hj e => ?_⟩
  exact congrArg (elemGet · e 8) (writeDests_other zt j values s.z (notDest_of_val_ne hj))

/-- What a completing LD4B leaves in the destinations: the byte at its address for an active element, zero for an
inactive one (R86, R87). -/
theorem zByte_destReg_of_exec_next (h : exec (.ld4b zt pg rn m.castSucc) s = .next t) (r : Fin 4) {e : Nat}
    (he : e < s.cfg.elements) :
    t.zByte (destReg zt r) e = if s.active pg e then s.memByte (s.addrOf rn m e r) else 0 := by
  obtain ⟨m', hm, -, -, values, rfl, hvalues⟩ := exec_next_inv h
  obtain rfl := Fin.castSucc_injective _ hm
  exact (congrArg (elemGet · e 8) (writeDests_dest zt values s.z r)).trans (hvalues r e he)

/-- Settles O25: both states complete, and the closed form of a destination byte has the same value in both. -/
theorem resultDependsOnlyOnInputs : Obligations.ResultDependsOnlyOnInputs := by
  intro zt pg rn m s s' t hexec hvq hbase hindex hactive hbytes hchecks hreadable
  obtain ⟨values, hexec', -⟩ := exec_readable (zt := zt) hchecks hreadable
  refine ⟨_, hexec', fun r e he => ?_⟩
  have he' : e < s'.cfg.elements := by
    simpa only [Config.elements, Config.VL, hvq] using he
  have haddr : s'.addrOf rn m e r = s.addrOf rn m e r := by
    simp only [State.addrOf, hbase, hindex]
  rw [zByte_destReg_of_exec_next hexec' r he', zByte_destReg_of_exec_next hexec r he, hactive e he, haddr]
  split
  · next ha => exact hbytes e he ha r r.isLt
  · rfl

/-- An entry that does not look at the tag-checked indication of data reads applies to them alike under both. -/
theorem FaultRange.applies_normal_of_always {f : FaultRange} (h : f.acc = .normal → f.tag = .always) (b b' : Bool)
    (a : Word) : f.applies .normal b a = f.applies .normal b' a := by
  by_cases hacc : f.acc = .normal
  · simp only [FaultRange.applies, h hacc, TagCondition.admits]
  · simp only [FaultRange.applies, beq_eq_false_iff_ne.2 hacc, Bool.false_and]

/-- Where no entry for data reads looks at the tag-checked indication, it does not change which of them fault (R32). -/
theorem memFault_normal_of_always (h : ∀ f ∈ s.faultMap, f.acc = .normal → f.tag = .always) (b b' : Bool) (a : Word) :
    s.memFault .normal b a = s.memFault .normal b' a :=
  congrArg (Option.map FaultRange.kind) <|
    List.find?_congr fun f hf => FaultRange.applies_normal_of_always (h f hf) b b' a

/-- Settles O28: the extension's presence enters the reads of LD4B only as the indication given to `memFault`, so the
active bytes can be read as before, and the values written back are the same element by element. -/
theorem taggingActsOnlyThroughMemFault : Obligations.TaggingActsOnlyThroughMemFault := by
  rintro ⟨zt, pg, rn, rm⟩ s t b hmap hexec
  obtain ⟨m, rfl, hchecks, hreadable, values, rfl, hvalues⟩ := exec_next_inv hexec
  have hreadable' : ActiveBytesReadable pg rn m { s with cfg := { s.cfg with haveMte := b } } :=
    fun e he ha r hr => (memFault_normal_of_always hmap b s.cfg.haveMte _).trans (hreadable e he ha r hr)
  obtain ⟨values', hexec', hvalues'⟩ :=
    exec_readable (zt := zt) (s := { s with cfg := { s.cfg with haveMte := b } }) hchecks hreadable'
  have hsame : values' = values := Vector.ext fun r hr =>
    eq_of_elemGet (elements_mul s).1.ge fun e he => (hvalues' ⟨r, hr⟩ e he).trans (hvalues ⟨r, hr⟩ e he).symm
  subst hsame
  exact ⟨_, hexec', rfl, fun _ _ => rfl⟩

end Sys2Proof.Machine
end

section
/-! The word of an instruction decodes to it, for use where the word is fetched (R61, R63, R67). -/

namespace Sys2Proof

/-- Every instruction's word has the fixed bits of the pattern. -/
theorem matchesLd4b_encode (i : Instr) : matchesLd4b (encode i) = true := by
  obtain ⟨zt, pg, rn, rm⟩ := i
  rw [matchesLd4b_iff]
  intro b hb hmask
  rw [encode_getLsbD]
  interval_cases b <;> revert hmask <;> simp [ld4bMask, ld4bMatch]

/-- With SVE the word of a valid instruction decodes to the instruction. -/
theorem decodeWord_encode {i : Instr} (h : i.WF) : decodeWord true (encode i) = .instr i := by
  have hmatch := matchesLd4b_encode i
  obtain ⟨zt, pg, rn, rm⟩ := i
  have hrm : rm ≠ 31 := by simpa [Instr.WF, Instr.wf] using h
  simp [decodeWord, hmatch, hrm]

/-- A word taken as the row of an opcode table of 32 bits is that word. -/
theorem tableWord_toNat (w : InstrWord) : tableWord 32 w.toNat = w := by
  simp [tableWord, Nat.mod_eq_of_lt w.isLt]

end Sys2Proof
end

section
/-! What bytes written at ascending addresses leave in memory. -/

namespace Sys2Proof.Machine

/-- Addresses less than `2^64` apart are distinct, wrapping included. -/
theorem addInt_inj {a : Word} {j k : Nat} (hj : j < 2 ^ 64) (hk : k < 2 ^ 64) (h : addInt a j = addInt a k) : j = k := by
  have := congrArg BitVec.toNat h
  simp only [toNat_addInt] at this
  omega

/-- The next address, then `k` further. -/
theorem addInt_succ (a : Word) (k : Nat) : addInt a (k + 1) = addInt (addInt a 1) k := by
  rw [addInt_addInt, Nat.add_comm]

/-- Writing bytes leaves every address outside their window alone. -/
theorem Memory.read_writeBytes_other {m : Memory} {a a' : Word} {bs : List Byte} (h : ∀ k < bs.length, a' ≠ addInt a k) :
    (m.writeBytes a bs).read a'.toNat = m.read a'.toNat := by
  induction bs generalizing m a with
  | nil => rfl
  | cons b bs ih =>
    have hhead : a' ≠ a := by simpa only [addInt_zero] using h 0 (Nat.succ_pos _)
    have htail : ∀ k < bs.length, a' ≠ addInt (addInt a 1) k := by
      intro k hk
      rw [← addInt_succ]
      exact h (k + 1) (Nat.succ_lt_succ hk)
    exact (ih htail).trans (Memory.read_write_other fun heq => hhead (BitVec.eq_of_toNat_eq heq))

/-- Reading back a byte of those written, when they do not wrap onto each other. -/
theorem Memory.read_writeBytes {m : Memory} (a : Word) {bs : List Byte} (hm : m.wf = true) (hlen : bs.length ≤ 2 ^ 64)
    {k : Nat} (hk : k < bs.length) : (m.writeBytes a bs).read (addInt a k).toNat = bs[k] := by
  induction bs generalizing m a k with
  | nil => cases hk
  | cons b bs ih =>
    rw [List.length_cons] at hk hlen
    cases k with
    | zero =>
      have hkept : ∀ k < bs.length, a ≠ addInt (addInt a 1) k := by
        intro k hk heq
        rw [← addInt_succ] at heq
        have := addInt_inj (a := a) (j := 0) (k := k + 1) (by decide) (by omega) ((addInt_zero a).trans heq)
        omega
      rw [addInt_zero]
      exact (Memory.read_writeBytes_other hkept).trans (Memory.read_write_same hm)
    | succ k =>
      rw [addInt_succ]
      exact ih (addInt a 1) (Memory.write_wf b a.isLt hm) (Nat.le_of_succ_le hlen) (Nat.lt_of_succ_lt_succ hk)

end Sys2Proof.Machine
end

section
/-! Fetching: the word at an aligned `pc`, the step that runs it, and the word stored there. -/

namespace Sys2Proof.Machine

variable {s t : State}

theorem fetchFaultAt_eq_none {n : Nat} {a : Word} (h : ∀ k < n, s.memFault .ifetch false (addInt a k) = none) :
    s.fetchFaultAt n a = none := by
  induction n generalizing a with
  | zero => rfl
  | succ n ih =>
    have hhead : s.memFault .ifetch false a = none := by simpa only [addInt_zero] using h 0 (Nat.succ_pos n)
    have htail : ∀ k < n, s.memFault .ifetch false (addInt (addInt a 1) k) = none := by
      intro k hk
      rw [← addInt_succ]
      exact h (k + 1) (Nat.succ_lt_succ hk)
    simp only [State.fetchFaultAt, hhead, ih htail]

/-- The word an aligned fetch answers where none of its four bytes faults (R41). -/
theorem fetch_eq_word (hpc : s.PcAligned) (h : ∀ k < 4, s.memFault .ifetch false (addInt s.pc k) = none) :
    s.fetch = .word (wordOfBytes (s.memByte (addInt s.pc 0)) (s.memByte (addInt s.pc 1)) (s.memByte (addInt s.pc 2))
      (s.memByte (addInt s.pc 3))) := by
  simp only [State.fetch, hpc, ne_eq, not_true_eq_false, if_false, fetchFaultAt_eq_none h, addInt_zero]

theorem step_of_fetch {w : InstrWord} {i : Instr} (hfetch : s.fetch = .word w)
    (hdecode : decodeWord s.cfg.haveSve w = .instr i) : step s = exec i s := by
  simp only [step, hfetch, hdecode]

/-- Settles O11: the four bytes are the fetched word's, so the step decodes what `decodeBytes` does. -/
theorem stepRunsTheDecodedInstruction : Obligations.StepRunsTheDecodedInstruction := by
  intro s i hpc hnofault hdecode
  exact step_of_fetch (fetch_eq_word hpc hnofault) hdecode

@[simp] theorem withFetchWord_pc (s : State) (nbits w : Nat) : (s.withFetchWord nbits w).pc = s.pc := rfl
@[simp] theorem withFetchWord_cfg (s : State) (nbits w : Nat) : (s.withFetchWord nbits w).cfg = s.cfg := rfl

/-- The word stored where the step fetches is the word fetched. -/
theorem fetch_withFetchWord (w : InstrWord) (hinv : s.Inv)
    (h : ∀ k < 4, s.memFault .ifetch false (addInt s.pc k) = none) : (s.withFetchWord 32 w.toNat).fetch = .word w := by
  obtain ⟨hmem, hpc⟩ := hinv
  have hbyte (k : Nat) (hk : k < 4) :
      (s.withFetchWord 32 w.toNat).memByte (addInt s.pc k) = (bytesOfWord w)[k]'hk := by
    rw [State.withFetchWord, tableWord_toNat]
    exact Memory.read_writeBytes s.pc hmem (by simp [bytesOfWord]) hk
  rw [fetch_eq_word (s := s.withFetchWord 32 w.toNat) hpc h, withFetchWord_pc, hbyte 0 (by decide),
    hbyte 1 (by decide), hbyte 2 (by decide), hbyte 3 (by decide)]
  exact congrArg Fetched.word (wordOfBytes_bytesOfWord w)

/-- Settles O13: the stored word is fetched and decodes to the instruction; its bytes are the four at `pc`. -/
theorem storedWordIsTheOneRun : Obligations.StoredWordIsTheOneRun := by
  intro s i hwf hinv hsve hnofault
  refine ⟨step_of_fetch (fetch_withFetchWord (encode i) hinv hnofault) ?_, rfl, fun a ha => ?_⟩
  · rw [withFetchWord_cfg, hsve]
    exact decodeWord_encode hwf
  · exact Memory.read_writeBytes_other ha

/-- Settles O33: by induction on the number of steps, each of which advances `pc` by 4 and leaves the rest alone. -/
theorem runsAreSequential : Obligations.RunsAreSequential := by
  intro k
  induction k with
  | zero =>
    rintro s t ⟨⟩
    exact ⟨by simp, rfl, rfl, fun _ _ => rfl, rfl, rfl⟩
  | succ k ih =>
    intro s t hrun
    simp only [run] at hrun
    split at hrun
    · next u hstep =>
      obtain ⟨hpc, hx, hsp, hp, hmem, hcfg⟩ := ih u t hrun
      obtain ⟨zt, z, new, rfl, -⟩ := stepChangesOnlyFourVectorRegistersAndPc s u hstep
      refine ⟨?_, hx, hsp, hp, hmem, hcfg⟩
      rw [hpc, BitVec.add_assoc, ← BitVec.ofNat_add, Nat.mul_succ, Nat.add_comm]
    · cases hrun
    · cases hrun

end Sys2Proof.Machine
end

section
/-! The reads of a completing LD4B (R44, R46, R55), and the faults they can meet (R42, R104). -/

namespace Sys2Proof.Machine

variable {zt rn : Fin 32} {pg : Fin 8} {m : Fin 31} {s t : State}

/-- The bytes read in one element more: its four if it is active. -/
theorem activeAddrs_succ (s : State) (pg : Fin 8) (rn : Fin 32) (m : Fin 31) (n : Nat) :
    s.activeAddrs pg rn m (n + 1) =
      s.activeAddrs pg rn m n ++ if s.active pg n then (List.range 4).map (s.addrOf rn m n) else [] := by
  simp [State.activeAddrs, List.range_succ]

/-- Four reads for each active element. -/
theorem length_activeAddrs (s : State) (pg : Fin 8) (rn : Fin 32) (m : Fin 31) (n : Nat) :
    (s.activeAddrs pg rn m n).length = 4 * ((List.range n).filter (s.active pg)).length := by
  induction n with
  | zero => rfl
  | succ n ih =>
    rw [activeAddrs_succ, List.length_append, ih, List.range_succ (n := n), List.filter_append, List.length_append, Nat.mul_add]
    cases h : s.active pg n <;> simp [h]

/-- No byte is read twice in one execution. -/
theorem nodup_activeAddrs {n : Nat} (hn : n ≤ s.cfg.elements) : (s.activeAddrs pg rn m n).Nodup := by
  induction n with
  | zero => exact List.nodup_nil
  | succ n ih =>
    rw [activeAddrs_succ]
    split
    · refine List.nodup_append.2 ⟨ih (by omega), ?_, ?_⟩
      · refine List.Nodup.map_on (fun r hr r' hr' heq => ?_) List.nodup_range
        exact (addrOf_injective hn (List.mem_range.1 hr) hn (List.mem_range.1 hr') heq).2
      · rintro a hbefore b hhere rfl
        obtain ⟨e, he, -, r, hr, rfl⟩ := mem_activeAddrs.1 hbefore
        obtain ⟨r', hr', heq⟩ := List.mem_map.1 hhere
        have := (addrOf_injective hn (List.mem_range.1 hr') (Nat.lt_trans he hn) hr heq).1
        omega
    · simpa using ih (by omega)

/-- How far above base plus index a byte lies, modulo `2^64` (R84). -/
theorem toNat_addrOf_sub_start (s : State) (rn : Fin 32) (m : Fin 31) (e r : Nat) :
    (s.addrOf rn m e r - (s.baseValue rn + s.readX m)).toNat = (4 * e + r) % 2 ^ 64 := by
  simp only [State.addrOf, BitVec.toNat_sub, BitVec.toNat_add, toNat_effAddr]
  omega

/-- The bytes of the elements lie in a window of `VL DIV 2` addresses from base plus index on. -/
theorem addrOf_sub_start_lt {e r : Nat} (he : e < s.cfg.elements) (hr : r < 4) :
    (s.addrOf rn m e r - (s.baseValue rn + s.readX m)).toNat < s.cfg.VL / 2 := by
  have := elements_mul s
  rw [toNat_addrOf_sub_start]
  omega

/-- What a completing LD4B adds to the record of reads. -/
theorem reads_of_exec_next (h : exec (.ld4b zt pg rn m.castSucc) s = .next t) :
    t.reads = s.reads ++ s.activeAddrs pg rn m s.cfg.elements := by
  obtain ⟨m', hm, -, -, values, rfl, -⟩ := exec_next_inv h
  obtain rfl := Fin.castSucc_injective _ hm
  rfl

theorem deviceMap_of_exec_next {i : Instr} (h : exec i s = .next t) : t.deviceMap = s.deviceMap := by
  obtain ⟨zt, pg, rn, rm⟩ := i
  obtain ⟨m, -, -, -, values, rfl, -⟩ := exec_next_inv h
  rfl

/-- Settles O22: the reads added are the active bytes' addresses, distinct because the window does not wrap onto itself. -/
theorem readsFourBytesPerActiveElement : Obligations.ReadsFourBytesPerActiveElement := by
  intro zt pg rn m s t hexec
  refine ⟨_, reads_of_exec_next hexec, rfl, nodup_activeAddrs le_rfl, length_activeAddrs s pg rn m _, fun a ha => ?_⟩
  obtain ⟨e, he, -, r, hr, rfl⟩ := mem_activeAddrs.1 ha
  exact addrOf_sub_start_lt he hr

/-- Settles O23: the Device reads added are those of the distinct active bytes' addresses that are Device memory. -/
theorem deviceMemoryReadOncePerActiveByte : Obligations.DeviceMemoryReadOncePerActiveByte := by
  intro zt pg rn m s t hexec
  have hdevice : t.isDevice = s.isDevice := by
    funext a
    simp only [State.isDevice, deviceMap_of_exec_next hexec]
  refine ⟨(s.activeAddrs pg rn m s.cfg.elements).filter s.isDevice, ?_, fun a hdev hactive => ?_, fun a ha => ?_⟩
  · rw [State.deviceReads, State.deviceReads, hdevice, reads_of_exec_next hexec, List.filter_append]
  · exact List.count_eq_one_of_mem ((nodup_activeAddrs le_rfl).filter _)
      (List.mem_filter.2 ⟨mem_activeAddrs.2 hactive, hdev⟩)
  · obtain ⟨hread, hdev⟩ := List.mem_filter.1 ha
    exact ⟨hdev, mem_activeAddrs.1 hread⟩

/-- Settles O26: what is read is left alone, so the same values are written back again. -/
theorem secondExecutionGivesTheSameState : Obligations.SecondExecutionGivesTheSameState := by
  rintro ⟨zt, pg, rn, rm⟩ s t hexec
  obtain ⟨m, rfl, hchecks, hreadable, values, rfl, hvalues⟩ := exec_next_inv hexec
  obtain ⟨values', hexec', hvalues'⟩ := exec_readable (zt := zt)
    (s := { s with z := writeDests zt values s.z, reads := s.reads ++ s.activeAddrs pg rn m s.cfg.elements })
    hchecks hreadable
  have hsame : values' = values := Vector.ext fun r hr =>
    eq_of_elemGet (elements_mul s).1.ge fun e he => (hvalues' ⟨r, hr⟩ e he).trans (hvalues ⟨r, hr⟩ e he).symm
  rw [hsame, writeDests_twice] at hexec'
  exact ⟨_, rfl, hexec'⟩

/-- A fault comes from an entry of the fault map of that access type and kind. -/
theorem exists_entry_of_memFault {acc : AccType} {tag : Bool} {a : Word} {k : FaultKind}
    (h : s.memFault acc tag a = some k) : ∃ f ∈ s.faultMap, f.acc = acc ∧ f.kind = k := by
  obtain ⟨f, hfind, hkind⟩ := Option.map_eq_some_iff.1 h
  have happlies := List.find?_some hfind
  simp only [FaultRange.applies, Bool.and_eq_true, beq_iff_eq] at happlies
  obtain ⟨⟨⟨hacc, -⟩, -⟩, -⟩ := happlies
  exact ⟨f, List.mem_of_find?_eq_some hfind, hacc, hkind⟩

/-- Entries of the kind `alignment` for data reads are passed over (R42). -/
theorem memFault_normal_eq_none (h : ∀ f ∈ s.faultMap, f.acc = .normal → f.kind = .alignment) (tag : Bool) (a : Word) :
    s.memFault .normal tag a = none := by
  rw [Option.eq_none_iff_forall_ne_some]
  intro k hk
  obtain ⟨f, hf, hacc, rfl⟩ := exists_entry_of_memFault hk
  exact memFault_normal_ne_alignment (hk.trans (congrArg some (h f hf hacc)))

/-- Settles O35: a data abort has the kind of a data read's fault, which is never `alignment`; where all entries for data
reads are of that kind, every active byte can be read. -/
theorem noAlignmentFaultOnData : Obligations.NoAlignmentFaultOnData := by
  constructor
  · rintro ⟨zt, pg, rn, rm⟩ s t a e r habort
    rcases exec_cases zt pg rn rm s with ⟨h, -⟩ | ⟨h, -⟩ | ⟨h, -⟩ | ⟨m, rfl, -⟩
    · cases habort.symm.trans h
    · cases habort.symm.trans h
    · cases habort.symm.trans h
    · obtain ⟨-, ⟨-, -, hfault, -⟩, -⟩ := exec_dataAbort_inv habort
      exact memFault_normal_ne_alignment hfault
  · intro zt pg rn m s hmap hchecks
    obtain ⟨_, hnext, -⟩ := exec_readable (zt := zt) (pg := pg) (m := m) hchecks
      fun e _ _ r _ => memFault_normal_eq_none hmap _ (s.addrOf rn m e r)
    exact ⟨_, hnext⟩

end Sys2Proof.Machine
end

section
/-! A word as its columns (R61): the fixed ones, which the mask and match value pin (R67), and the four fields. -/

namespace Sys2Proof

variable {w w' : InstrWord}

/-- A word's columns determine the bits under them. -/
theorem getLsbD_eq_of_extractLsb'_eq {start len i : Nat} (h : w.extractLsb' start len = w'.extractLsb' start len)
    (hlo : start ≤ i) (hhi : i < start + len) : w.getLsbD i = w'.getLsbD i := by
  have hbit := congrArg (fun v => v.getLsbD (i - start)) h
  simpa [show i - start < len by omega, show start + (i - start) = i by omega] using hbit

/-- R67's test, as the statements write it. -/
theorem matchesLd4b_iff_and_eq : matchesLd4b w = true ↔ w &&& 0xFFE0E000#32 = 0xA460C000#32 := beq_iff_eq

/-- A column that the mask covers holds, in a matching word, the bits of the match value. -/
theorem extractLsb'_of_matchesLd4b (h : matchesLd4b w = true) {start len : Nat}
    (hmask : ld4bMask.extractLsb' start len = BitVec.allOnes len) :
    w.extractLsb' start len = ld4bMatch.extractLsb' start len := by
  have hcolumn := congrArg (BitVec.extractLsb' start len) (matchesLd4b_iff_and_eq.1 h)
  rwa [BitVec.extractLsb'_and, show BitVec.extractLsb' start len 0xFFE0E000#32 = BitVec.allOnes len from hmask,
    BitVec.and_allOnes] at hcolumn

/-- R67 against R61: the words that match are those with the five fixed columns of the diagram. -/
theorem matchesLd4b_iff_columns :
    matchesLd4b w = true ↔ w.extractLsb' 25 7 = 0b1010010#7 ∧ w.extractLsb' 24 1 = 0b0#1 ∧
      w.extractLsb' 23 1 = 0b0#1 ∧ w.extractLsb' 21 2 = 0b11#2 ∧ w.extractLsb' 13 3 = 0b110#3 := by
  constructor
  · intro h
    exact ⟨extractLsb'_of_matchesLd4b h rfl, extractLsb'_of_matchesLd4b h rfl, extractLsb'_of_matchesLd4b h rfl,
      extractLsb'_of_matchesLd4b h rfl, extractLsb'_of_matchesLd4b h rfl⟩
  · rintro ⟨h25, h24, h23, h21, h13⟩
    rw [matchesLd4b_iff]
    intro i hi hmask
    have hcolumns : ∀ i < 32, ld4bMask.getLsbD i = true → 25 ≤ i ∨ i = 24 ∨ i = 23 ∨ 21 ≤ i ∧ i < 23 ∨ 13 ≤ i ∧ i < 16 := by
      decide
    rcases hcolumns i hi hmask with hlo | rfl | rfl | ⟨hlo, hhi⟩ | ⟨hlo, hhi⟩
    · exact getLsbD_eq_of_extractLsb'_eq (w' := ld4bMatch) h25 hlo hi
    · exact getLsbD_eq_of_extractLsb'_eq (w' := ld4bMatch) h24 le_rfl (by decide)
    · exact getLsbD_eq_of_extractLsb'_eq (w' := ld4bMatch) h23 le_rfl (by decide)
    · exact getLsbD_eq_of_extractLsb'_eq (w' := ld4bMatch) h21 hlo hhi
    · exact getLsbD_eq_of_extractLsb'_eq (w' := ld4bMatch) h13 hlo hhi

/-- Matching words with the same fields are the same word: the fields are all the bits that the mask leaves. -/
theorem eq_of_matchesLd4b_of_fields (h : matchesLd4b w = true) (h' : matchesLd4b w' = true)
    (hzt : fieldZt w = fieldZt w') (hrn : fieldRn w = fieldRn w') (hpg : fieldPg w = fieldPg w')
    (hrm : fieldRm w = fieldRm w') : w = w' := by
  have hfields : ∀ i < 32, ld4bMask.getLsbD i = true ∨ i < 5 ∨ 5 ≤ i ∧ i < 10 ∨ 10 ≤ i ∧ i < 13 ∨ 16 ≤ i ∧ i < 21 := by
    decide
  apply BitVec.eq_of_getLsbD_eq
  intro i hi
  rcases hfields i hi with hmask | hlt | ⟨hlo, hhi⟩ | ⟨hlo, hhi⟩ | ⟨hlo, hhi⟩
  · exact ((matchesLd4b_iff w).1 h i hi hmask).trans ((matchesLd4b_iff w').1 h' i hi hmask).symm
  · exact getLsbD_eq_of_extractLsb'_eq (BitVec.toFin_inj.1 hzt) (Nat.zero_le i) (by omega)
  · exact getLsbD_eq_of_extractLsb'_eq (BitVec.toFin_inj.1 hrn) hlo hhi
  · exact getLsbD_eq_of_extractLsb'_eq (BitVec.toFin_inj.1 hpg) hlo hhi
  · exact getLsbD_eq_of_extractLsb'_eq (BitVec.toFin_inj.1 hrm) hlo hhi

/-- The instruction that a word's fields name (R63). -/
def fieldsInstr (w : InstrWord) : Instr := .ld4b (fieldZt w) (fieldPg w) (fieldRn w) (fieldRm w)

/-- A matching word is the encoding of its fields. -/
theorem encode_fieldsInstr (h : matchesLd4b w = true) : encode (fieldsInstr w) = w :=
  eq_of_matchesLd4b_of_fields (matchesLd4b_encode _) h (fieldZt_encode ..) (fieldRn_encode ..) (fieldPg_encode ..)
    (fieldRm_encode ..)

/-- The well-formed instructions are those whose index field is not 31 (R69). -/
theorem wf_ld4b_iff {zt rn rm : Fin 32} {pg : Fin 8} : (Instr.ld4b zt pg rn rm).WF ↔ rm ≠ 31 := by
  simp [Instr.WF, Instr.wf]

theorem fieldRm_eq_31_iff : fieldRm w = 31 ↔ w.extractLsb' 16 5 = 0b11111#5 :=
  BitVec.toFin_inj (y := 0b11111#5)

/-- `Rm == '11111'`, by a mask. -/
theorem fieldRm_eq_31_iff_and_eq : fieldRm w = 31 ↔ w &&& 0x001F0000#32 = 0x001F0000#32 := by
  rw [fieldRm_eq_31_iff]
  constructor
  · intro h
    have hbits : ∀ i < 32, (0x001F0000#32).getLsbD i = true → 16 ≤ i ∧ i < 21 := by decide
    apply BitVec.eq_of_getLsbD_eq
    intro i hi
    rw [BitVec.getLsbD_and]
    by_cases hmask : (0x001F0000#32).getLsbD i = true
    · obtain ⟨hlo, hhi⟩ := hbits i hi hmask
      rw [getLsbD_eq_of_extractLsb'_eq (w' := 0x001F0000#32) h hlo hhi, Bool.and_self]
    · simp only [Bool.not_eq_true] at hmask
      rw [hmask, Bool.and_false]
  · intro h
    have hcolumn := congrArg (BitVec.extractLsb' 16 5) h
    rwa [BitVec.extractLsb'_and, show BitVec.extractLsb' 16 5 0x001F0000#32 = BitVec.allOnes 5 from rfl,
      BitVec.and_allOnes] at hcolumn

/-! ### What the decoder answers, said once -/

variable {haveSve : Bool}

/-- The two tests for `UNDEFINED` (R68, R69) as one. -/
theorem decodeWord_eq (haveSve : Bool) (w : InstrWord) :
    decodeWord haveSve w =
      if matchesLd4b w then
        if haveSve = false ∨ fieldRm w = 31 then .undefined w else .instr (fieldsInstr w)
      else .outOfScope w := by
  cases haveSve
  · simp [decodeWord]
  · simp [decodeWord, fieldsInstr]

theorem decodeWord_eq_outOfScope_iff : decodeWord haveSve w = .outOfScope w ↔ ¬ matchesLd4b w = true := by
  rw [decodeWord_eq]
  split_ifs with hmatch hundef
  · simp [hmatch]
  · simp [hmatch]
  · simp [hmatch]

theorem decodeWord_eq_undefined_iff :
    decodeWord haveSve w = .undefined w ↔ matchesLd4b w = true ∧ (haveSve = false ∨ fieldRm w = 31) := by
  rw [decodeWord_eq]
  split_ifs with hmatch hundef
  · simp [hmatch, hundef]
  · simp [hundef]
  · simp [hmatch]

/-- An instruction is answered only where SVE is present, and only for a matching word that names it and is valid. -/
theorem decodeWord_eq_instr_iff {i : Instr} :
    decodeWord haveSve w = .instr i ↔
      matchesLd4b w = true ∧ haveSve = true ∧ fieldRm w ≠ 31 ∧ fieldsInstr w = i := by
  rw [decodeWord_eq]
  split_ifs with hmatch hundef
  · rcases hundef with hsve | hrm
    · simp [hsve]
    · simp [hrm]
  · obtain ⟨hsve, hrm⟩ := not_or.1 hundef
    simp [hmatch, hsve, hrm]
  · simp [hmatch]

end Sys2Proof
end

section
/-! Decoding and encoding (R61, R63, R67 to R70). -/

namespace Sys2Proof

/-- Decoding the bytes of a word, whatever follows them, is decoding the word. -/
theorem decodeBytes_bytesOfWord_append (haveSve : Bool) (w : InstrWord) (rest : List Byte) :
    decodeBytes haveSve (bytesOfWord w ++ rest) = decodeWord haveSve w :=
  congrArg (decodeWord haveSve) (wordOfBytes_bytesOfWord w)

/-- Settles O1: an encoded word matches and holds its operands as fields, and its bytes make it again. -/
theorem decodeOfEncodeIsTheInstruction : Obligations.DecodeOfEncodeIsTheInstruction := fun i hwf =>
  ⟨decodeWord_encode hwf, fun rest => (decodeBytes_bytesOfWord_append true (encode i) rest).trans (decodeWord_encode hwf)⟩

/-- Settles O2: the word decoded matches, so it is the encoding of its fields. -/
theorem decodedWordIsItsEncoding : Obligations.DecodedWordIsItsEncoding := by
  intro haveSve w i hdecode
  obtain ⟨hmatch, hsve, hrm, rfl⟩ := decodeWord_eq_instr_iff.1 hdecode
  exact ⟨encode_fieldsInstr hmatch, wf_ld4b_iff.2 hrm, hsve⟩

/-- Settles O3: the decoder's three tests, each by its mask. -/
theorem decoderAnswersByMaskAndMatch : Obligations.DecoderAnswersByMaskAndMatch := by
  intro haveSve w
  refine ⟨?_, ?_, ?_⟩
  · simp only [decodeWord_eq_instr_iff, matchesLd4b_iff_and_eq, fieldRm_eq_31_iff_and_eq, ne_eq, exists_and_left,
      exists_eq', and_true]
  · rw [decodeWord_eq_undefined_iff, matchesLd4b_iff_and_eq, fieldRm_eq_31_iff_and_eq]
  · rw [decodeWord_eq_outOfScope_iff, matchesLd4b_iff_and_eq]

theorem toNat_append_eq_add {m n : Nat} (x : BitVec m) (y : BitVec n) : (x ++ y).toNat = x.toNat <<< n + y.toNat := by
  rw [BitVec.toNat_append, Nat.shiftLeft_add_eq_or_of_lt y.isLt]

/-- Settles O4: the fields, joined in the order of the diagram, do not overlap. -/
theorem encodingIsTheSumOfItsFields : Obligations.EncodingIsTheSumOfItsFields := by
  intro zt pg rn rm
  change BitVec.toNat (w := 11 + 5 + 3 + 3 + 5 + 5) (_ ++ _ ++ _ ++ _ ++ _ ++ _) = _
  simp only [toNat_append_eq_add, BitVec.toNat_ofFin, BitVec.toNat_ofNat, Nat.shiftLeft_eq]
  omega

/-- A word that matches does so no more once a bit under the mask is flipped. -/
theorem not_matchesLd4b_flip {w : InstrWord} {b : Nat} (h : matchesLd4b w = true) (hb : b < 32)
    (hmask : ld4bMask.getLsbD b = true) : ¬ matchesLd4b (w ^^^ 1#32 <<< b) = true := by
  intro hflipped
  have hbit := (matchesLd4b_iff _).1 hflipped b hb hmask
  rw [← (matchesLd4b_iff w).1 h b hb hmask] at hbit
  simp [hb] at hbit

/-- Settles O5: all fourteen bits stand under the mask. -/
theorem flippedFixedBitIsOutOfScope : Obligations.FlippedFixedBitIsOutOfScope := by
  intro haveSve i b hb
  have hmask : ∀ b ∈ [13, 14, 15, 21, 22, 23, 24, 25, 26, 27, 28, 29, 30, 31], b < 32 ∧ ld4bMask.getLsbD b = true := by
    decide
  obtain ⟨hlt, hset⟩ := hmask b hb
  exact decodeWord_eq_outOfScope_iff.2 (not_matchesLd4b_flip (matchesLd4b_encode i) hlt hset)

/-- Settles O6: the decoder run on five literal words. -/
theorem wordsWrittenFromTheDiagramDecode : Obligations.WordsWrittenFromTheDiagramDecode := by
  unfold Obligations.WordsWrittenFromTheDiagramDecode
  decide

end Sys2Proof
end

section
/-! The diagram, and the disassembler's statement (R61, R72). -/

namespace Sys2Proof

/-- The register numbers that a disassembled statement lists: four from `zt` on, modulo 32 (R64). -/
def listFrom (zt : Fin 32) : List Nat := [zt.val, (zt.val + 1) % 32, (zt.val + 2) % 32, (zt.val + 3) % 32]

/-- The statement of an instruction with a valid index field; with index field 31 there is none. -/
theorem disassemble_ld4b_eq_some_iff {zt rn rm : Fin 32} {pg : Fin 8} {a : AsmStatement} :
    disassemble (.ld4b zt pg rn rm) = some a ↔ rm ≠ 31 ∧ ⟨listFrom zt, pg.val, baseName rn, .x rm.val⟩ = a := by
  by_cases h : rm = 31
  · simp [disassemble, h]
  · simp [disassemble, h, listFrom]

/-- `Rn` = 31, and no other, is the stack pointer (R65). -/
theorem baseName_eq_sp_iff {rn : Fin 32} : baseName rn = .sp ↔ rn = 31 := by
  simp [baseName]

/-- Settles O34: an encoded word matches, which fixes five columns, and holds the four fields; a word with those columns
matches, so it is the encoding of its fields. -/
theorem encodedWordIsTheDiagram : Obligations.EncodedWordIsTheDiagram := by
  refine ⟨fun zt pg rn rm => ?_, fun w h25 h24 h23 h21 h13 => ?_, fun zt pg rn rm a ha => ?_⟩
  · obtain ⟨h25, h24, h23, h21, h13⟩ := matchesLd4b_iff_columns.1 (matchesLd4b_encode (.ld4b zt pg rn rm))
    exact ⟨_, rfl, h25, h24, h23, h21, (encode_bits_rm ..).trans BitVec.ofFin_eq_ofNat, h13,
      (encode_bits_pg ..).trans BitVec.ofFin_eq_ofNat, (encode_bits_rn ..).trans BitVec.ofFin_eq_ofNat,
      (encode_bits_zt ..).trans BitVec.ofFin_eq_ofNat⟩
  · exact ⟨_, encode_fieldsInstr (matchesLd4b_iff_columns.2 ⟨h25, h24, h23, h21, h13⟩)⟩
  · obtain ⟨-, rfl⟩ := disassemble_ld4b_eq_some_iff.1 ha
    exact baseName_eq_sp_iff

end Sys2Proof
end

section
/-! Assembling and disassembling are inverse between the valid instructions and the well-formed statements (R74). -/

namespace Sys2Proof

variable {i : Instr} {a : AsmStatement}

/-- The lists of R74 are those a first destination gives. -/
theorem consecutiveList_iff {l : List Nat} : consecutiveList l = true ↔ ∃ zt, listFrom zt = l := by
  constructor
  · intro h
    unfold consecutiveList at h
    split at h
    · next a b c d =>
      simp only [Bool.and_eq_true, decide_eq_true_eq, beq_iff_eq] at h
      obtain ⟨⟨⟨ha, rfl⟩, rfl⟩, rfl⟩ := h
      exact ⟨⟨a, ha⟩, rfl⟩
    · cases h
  · rintro ⟨zt, rfl⟩
    simp [listFrom, consecutiveList]

/-- The names for the base are those the base field's values have. -/
theorem isBase_iff {n : ScalarName} : n.isBase = true ↔ ∃ rn, baseName rn = n := by
  constructor
  · intro h
    cases n with
    | x n =>
      have hn : n < 31 := of_decide_eq_true h
      exact ⟨⟨n, by omega⟩, if_neg fun h31 => hn.ne (congrArg Fin.val h31)⟩
    | sp => exact ⟨31, rfl⟩
    | xzr => cases h
  · rintro ⟨rn, rfl⟩
    by_cases h31 : rn = 31
    · subst h31; rfl
    · simp [baseName, h31, ScalarName.isBase]; omega

/-- The names for the index are those the index field's values have, but for 31. -/
theorem isIndex_iff {n : ScalarName} : n.isIndex = true ↔ ∃ rm : Fin 32, rm ≠ 31 ∧ .x rm.val = n := by
  constructor
  · intro h
    cases n with
    | x n =>
      have hn : n < 31 := of_decide_eq_true h
      exact ⟨⟨n, by omega⟩, fun h31 => hn.ne (congrArg Fin.val h31), rfl⟩
    | sp => cases h
    | xzr => cases h
  · rintro ⟨rm, h31, rfl⟩
    simp [ScalarName.isIndex]; omega

@[simp] theorem baseField_baseName (rn : Fin 32) : baseField (baseName rn) = some rn := by
  by_cases h31 : rn = 31
  · subst h31; rfl
  · have : rn.val < 31 := by omega
    simp [baseName, h31, baseField, this]

theorem indexField_x {rm : Fin 32} (h : rm ≠ 31) : indexField (.x rm.val) = some rm := by
  have : rm.val < 31 := by omega
  simp [indexField, this]

/-- Exactly the valid instructions have a statement (R69, R74). -/
theorem exists_disassemble_iff : (∃ a, disassemble i = some a) ↔ i.WF := by
  obtain ⟨zt, pg, rn, rm⟩ := i
  simp only [disassemble_ld4b_eq_some_iff, wf_ld4b_iff, exists_and_left, exists_eq', and_true]

/-- The well-formed statements are those the disassembler gives. -/
theorem wf_iff_exists_disassemble : a.wf = true ↔ ∃ i, disassemble i = some a := by
  constructor
  · intro h
    obtain ⟨list, pg, base, index⟩ := a
    simp only [AsmStatement.wf, Bool.and_eq_true, decide_eq_true_eq, consecutiveList_iff, isBase_iff, isIndex_iff] at h
    obtain ⟨⟨⟨⟨zt, rfl⟩, hpg⟩, ⟨rn, rfl⟩⟩, ⟨rm, hrm, rfl⟩⟩ := h
    exact ⟨.ld4b zt ⟨pg, hpg⟩ rn rm, disassemble_ld4b_eq_some_iff.2 ⟨hrm, rfl⟩⟩
  · rintro ⟨⟨zt, pg, rn, rm⟩, h⟩
    obtain ⟨hrm, rfl⟩ := disassemble_ld4b_eq_some_iff.1 h
    simp only [AsmStatement.wf, consecutiveList_iff.2 ⟨zt, rfl⟩, pg.isLt, isBase_iff.2 ⟨rn, rfl⟩,
      isIndex_iff.2 ⟨rm, hrm, rfl⟩, decide_true, Bool.and_self]

theorem wf_of_assemble (h : assemble a = some i) : a.wf = true := by
  unfold assemble at h
  split at h
  · assumption
  · cases h

theorem assemble_of_disassemble (h : disassemble i = some a) : assemble a = some i := by
  have hwf : a.wf = true := wf_iff_exists_disassemble.2 ⟨i, h⟩
  obtain ⟨zt, pg, rn, rm⟩ := i
  obtain ⟨hrm, rfl⟩ := disassemble_ld4b_eq_some_iff.1 h
  unfold assemble
  rw [hwf, baseField_baseName, indexField_x hrm]
  simp [listFrom]

theorem disassemble_of_assemble (h : assemble a = some i) : disassemble i = some a := by
  obtain ⟨j, hj⟩ := wf_iff_exists_disassemble.1 (wf_of_assemble h)
  obtain rfl : j = i := Option.some_inj.1 ((assemble_of_disassemble hj).symm.trans h)
  exact hj

/-- Settles O9: the statement disassembled is well formed and assembles back. -/
theorem assembleOfDisassembleIsTheInstruction : Obligations.AssembleOfDisassembleIsTheInstruction := by
  intro i hwf
  obtain ⟨a, ha⟩ := exists_disassemble_iff.2 hwf
  exact ⟨a, ha, wf_iff_exists_disassemble.2 ⟨i, ha⟩, assemble_of_disassemble ha⟩

/-- Settles O10: a well-formed statement is a disassembled one, which assembles back. -/
theorem exactlyWellFormedStatementsAssemble : Obligations.ExactlyWellFormedStatementsAssemble := by
  refine fun a => ⟨⟨fun hwf => ?_, fun ⟨_, h⟩ => wf_of_assemble h⟩, fun i h => ?_⟩
  · obtain ⟨i, hi⟩ := wf_iff_exists_disassemble.1 hwf
    exact ⟨i, assemble_of_disassemble hi⟩
  · have hdis := disassemble_of_assemble h
    exact ⟨exists_disassemble_iff.1 ⟨a, hdis⟩, hdis⟩

end Sys2Proof
end

section
/-! Where a step ends without executing (R68 to R70, R106, R121). -/

namespace Sys2Proof.Machine

variable {s : State} {w : InstrWord}

/-- A fetched word that is undefined raises `Undefined` with the word and the state as it is (R100, R107). -/
theorem step_of_undefined (hfetch : s.fetch = .word w) (hdecode : decodeWord s.cfg.haveSve w = .undefined w) :
    step s = .fault (.undefined w s) := by
  simp only [step, hfetch, hdecode, raise_eq]

/-- A fetched word outside the pattern is refused (R70). -/
theorem step_of_outOfScope (hfetch : s.fetch = .word w) (hdecode : decodeWord s.cfg.haveSve w = .outOfScope w) :
    step s = .refused (.outOfScope w) := by
  simp only [step, hfetch, hdecode]

/-- Settles O7: without SVE every matching word is undefined, and with SVE the decoder tests the index field. -/
theorem indexField31IsUndefined : Obligations.IndexField31IsUndefined := by
  intro w hmatch hrm
  have hdecode (haveSve : Bool) : decodeWord haveSve w = .undefined w :=
    decodeWord_eq_undefined_iff.2 ⟨matchesLd4b_iff_and_eq.2 hmatch, .inr (fieldRm_eq_31_iff.2 hrm)⟩
  exact ⟨hdecode, fun s hfetch => step_of_undefined hfetch (hdecode s.cfg.haveSve)⟩

/-- Settles O8: the decoder tests for SVE before it looks at a field. -/
theorem withoutSveEveryMatchingWordIsUndefined : Obligations.WithoutSveEveryMatchingWordIsUndefined := by
  intro w hmatch
  have hdecode : decodeWord false w = .undefined w :=
    decodeWord_eq_undefined_iff.2 ⟨matchesLd4b_iff_and_eq.2 hmatch, .inl rfl⟩
  refine ⟨hdecode, fun s hsve hfetch => step_of_undefined hfetch ?_⟩
  rw [hsve]
  exact hdecode

/-- The fetch reports the first byte that faults. -/
theorem fetchFaultAt_eq_some {n k : Nat} {a : Word} {kind : FaultKind} (hk : k < n)
    (hfault : s.memFault .ifetch false (addInt a k) = some kind)
    (hbefore : ∀ k' < k, s.memFault .ifetch false (addInt a k') = none) :
    s.fetchFaultAt n a = some (addInt a k, kind) := by
  induction n generalizing a k with
  | zero => cases hk
  | succ n ih =>
    cases k with
    | zero =>
      rw [addInt_zero] at hfault ⊢
      simp only [State.fetchFaultAt, hfault]
    | succ k =>
      have hhead : s.memFault .ifetch false a = none := by simpa only [addInt_zero] using hbefore 0 (Nat.succ_pos k)
      have htail : ∀ k' < k, s.memFault .ifetch false (addInt (addInt a 1) k') = none := by
        intro k' hk'
        rw [← addInt_succ]
        exact hbefore (k' + 1) (Nat.succ_lt_succ hk')
      rw [addInt_succ] at hfault ⊢
      simp only [State.fetchFaultAt, hhead, ih (Nat.lt_of_succ_lt_succ hk) hfault htail]

theorem fetch_eq_misaligned (hpc : ¬ s.PcAligned) : s.fetch = .misaligned := if_pos hpc

theorem fetch_eq_faulted {a : Word} {kind : FaultKind} (hpc : s.PcAligned) (h : s.fetchFaultAt 4 s.pc = some (a, kind)) :
    s.fetch = .faulted a kind := by
  simp only [State.fetch, hpc, ne_eq, not_true_eq_false, if_false, h]

/-- Settles O12: the fetch's three ways not to lead to an instruction, each of which stops the step. -/
theorem stepStopsBeforeDecode : Obligations.StepStopsBeforeDecode := by
  refine fun s => ⟨fun hpc => ?_, fun k hk kind hpc hfault hbefore => ?_, fun w hfetch hmatch => ?_⟩
  · simp only [step, fetch_eq_misaligned hpc]
  · simp only [step, fetch_eq_faulted hpc (fetchFaultAt_eq_some hk hfault hbefore), raise_eq]
  · exact step_of_outOfScope hfetch (decodeWord_eq_outOfScope_iff.2 (mt matchesLd4b_iff_and_eq.1 hmatch))

end Sys2Proof.Machine
end

section
/-! The destination list (R64). -/

namespace Sys2Proof.Machine

variable {zt rn : Fin 32} {pg : Fin 8} {m : Fin 31} {s : State}

/-- Where LD4B completes it does so from the same state with any other vector file, into which it writes back the very
values it wrote into the first. -/
theorem exec_of_other_vectors {values : Vector (BitVec s.cfg.VL) 4} (hchecks : ChecksPass rn s)
    (hreadable : ActiveBytesReadable pg rn m s)
    (hvalues : ∀ (r : Fin 4) (e : Nat), e < s.cfg.elements →
      elemGet values[r] e 8 = if s.active pg e then s.memByte (s.addrOf rn m e r) else 0)
    (old : Vector (BitVec s.cfg.VL) 32) :
    exec (.ld4b zt pg rn m.castSucc) { s with z := old } = .next { s with
      z := writeDests zt values old
      pc := s.pc + 4#64
      reads := s.reads ++ s.activeAddrs pg rn m s.cfg.elements } := by
  obtain ⟨values', hexec, hvalues'⟩ := exec_readable (zt := zt) (s := { s with z := old }) hchecks hreadable
  have hsame : values' = values := Vector.ext fun r hr =>
    eq_of_elemGet (elements_mul s).1.ge fun e he => (hvalues' ⟨r, hr⟩ e he).trans (hvalues ⟨r, hr⟩ e he).symm
  rw [hsame] at hexec
  exact hexec

/-- Settles O36: the write-back goes to the four registers of the list, with values that no vector register enters. -/
theorem destinationsAreConsecutiveModulo32 : Obligations.DestinationsAreConsecutiveModulo32 := by
  refine fun zt pg rn rm => ⟨fun hrm => decodeWord_encode (wf_ld4b_iff.2 hrm), fun s t hexec => ?_⟩
  obtain ⟨m, rfl, hchecks, hreadable, values, rfl, hvalues⟩ := exec_next_inv hexec
  refine ⟨writeDests zt values s.z, _, _, rfl, fun j hj => ?_, fun old => ?_⟩
  · exact writeDests_other zt j values s.z (notDest_of_val_ne hj)
  · refine ⟨writeDests zt values old, exec_of_other_vectors hchecks hreadable hvalues old, fun r => ?_⟩
    exact (writeDests_dest zt values old r).trans (writeDests_dest zt values s.z r).symm

end Sys2Proof.Machine
end

section
/-! How LD4B ends: the raises before its loops in the order of the pseudocode, the first active byte that cannot be read, or
completion (R92, R107). -/

namespace Sys2Proof.Machine

variable {zt rn rm : Fin 32} {pg : Fin 8} {m : Fin 31} {s t : State}

/-- The raise with which LD4B ends before its loops, if there is one (R92, points 1 to 4). Of the state it looks at the
parameters and the stack pointer only. -/
def raiseBeforeLoops (zt : Fin 32) (pg : Fin 8) (rn rm : Fin 32) (s : State) : Option (State → Fault) :=
  if s.cfg.haveSve = false ∨ rm = 31 then some (.undefined (encode (.ld4b zt pg rn rm)))
  else if s.sveEnabled = false then some .sveAccessTrap
  else if rn = 31 ∧ s.spCheckEnabled = true ∧ s.sp.toNat % 16 ≠ 0 then some .spAlignmentFault
  else none

/-- LD4B ends with that raise, given with the state as it is. -/
theorem exec_of_raiseBeforeLoops {f : State → Fault} (h : raiseBeforeLoops zt pg rn rm s = some f) :
    exec (.ld4b zt pg rn rm) s = .fault (f s) := by
  unfold raiseBeforeLoops at h
  split_ifs at h with hundef hsve hsp
  · cases h
    by_cases hhave : s.cfg.haveSve = false
    · simp [exec, execLd4b, hhave]
    · obtain rfl := hundef.resolve_left hhave
      simp [exec, execLd4b]
  · cases h
    obtain ⟨hhave, hrm⟩ := not_or.1 hundef
    obtain ⟨m, rfl⟩ := exists_castSucc hrm
    simp [exec, execLd4b, hhave, State.checkSVEEnabled, hsve]
  · cases h
    obtain ⟨hhave, hrm⟩ := not_or.1 hundef
    obtain ⟨m, rfl⟩ := exists_castSucc hrm
    obtain ⟨rfl, hcheck, hmod⟩ := hsp
    simp [exec, execLd4b, hhave, State.checkSVEEnabled, hsve, State.baseOperand, State.checkSPAlignment, hcheck, hmod]

/-- Where no raise comes before the loops, the index field names a register and the checks pass. -/
theorem checksPass_of_raiseBeforeLoops (h : raiseBeforeLoops zt pg rn rm s = none) :
    (∃ m : Fin 31, rm = m.castSucc) ∧ ChecksPass rn s := by
  unfold raiseBeforeLoops at h
  split_ifs at h with hundef hsve hsp
  obtain ⟨hhave, hrm⟩ := not_or.1 hundef
  refine ⟨exists_castSucc hrm, by simpa using hhave, by simpa using hsve, fun hrn hcheck => ?_⟩
  by_contra hmod
  exact hsp ⟨hrn, hcheck, hmod⟩

/-- The raise before the loops is given with whatever state it is applied to. -/
theorem withState_of_raiseBeforeLoops {f : State → Fault} (h : raiseBeforeLoops zt pg rn rm s = some f) (t t' : State) :
    (f t).withState t' = f t' := by
  unfold raiseBeforeLoops at h
  split_ifs at h
  · cases h; rfl
  · cases h; rfl
  · cases h; rfl

theorem state_of_raiseBeforeLoops {f : State → Fault} (h : raiseBeforeLoops zt pg rn rm s = some f) (t : State) :
    (f t).state = t := by
  rw [← withState_of_raiseBeforeLoops h t t, Fault.withState_state]

/-- Everything a raise of LD4B says: it is the one before the loops, or the data abort of the first active byte that
cannot be read. -/
theorem exec_fault_inv {f : Fault} (h : exec (.ld4b zt pg rn rm) s = .fault f) :
    (∃ g, raiseBeforeLoops zt pg rn rm s = some g ∧ f = g s) ∨
    ∃ m : Fin 31, rm = m.castSucc ∧ ChecksPass rn s ∧ ∃ e r k, FirstFault pg rn m s e r k ∧
      f = .dataAbort (s.addrOf rn m e r) e r k
        { s with reads := s.reads ++ (s.activeAddrs pg rn m e ++ (List.range r.val).map (s.addrOf rn m e)) } := by
  cases hraise : raiseBeforeLoops zt pg rn rm s with
  | some g =>
    rw [exec_of_raiseBeforeLoops hraise] at h
    cases h
    exact .inl ⟨g, rfl, rfl⟩
  | none =>
    obtain ⟨⟨m, rfl⟩, hchecks⟩ := checksPass_of_raiseBeforeLoops hraise
    rcases readable_or_firstFault pg rn m s with hreadable | ⟨e, r, k, hfirst⟩
    · obtain ⟨_, hnext, -⟩ := exec_readable (zt := zt) hchecks hreadable
      rw [hnext] at h
      cases h
    · rw [exec_firstFault hchecks hfirst] at h
      cases h
      exact .inr ⟨m, rfl, hchecks, e, r, k, hfirst, rfl⟩

/-- Settles O15: completion needs the checks and the active bytes, and these suffice. -/
theorem ld4bCompletesExactlyWhenNothingRaises : Obligations.Ld4bCompletesExactlyWhenNothingRaises := by
  intro zt pg rn rm s
  constructor
  · rintro ⟨t, hexec⟩
    obtain ⟨m, hrm, hchecks, hreadable, -⟩ := exec_next_inv hexec
    exact ⟨m, hrm, hchecks, hreadable⟩
  · rintro ⟨m, rfl, hchecks, hreadable⟩
    obtain ⟨_, hnext, -⟩ := exec_readable (zt := zt) hchecks hreadable
    exact ⟨_, hnext⟩

/-- Settles O16: the first four points are the raises before the loops, the fifth is the loops' first fault. -/
theorem exceptionsInPseudocodeOrder : Obligations.ExceptionsInPseudocodeOrder := by
  intro zt pg rn rm s
  refine ⟨fun hhave => ?_, fun _ hrm => ?_, fun hhave hrm hsve => ?_, fun hhave hrm hsve hrn hcheck hmod => ?_, ?_⟩
  · exact exec_of_raiseBeforeLoops (if_pos (.inl hhave))
  · exact exec_of_raiseBeforeLoops (if_pos (.inr hrm))
  · exact exec_of_raiseBeforeLoops (by simp [raiseBeforeLoops, hhave, hrm, hsve])
  · exact exec_of_raiseBeforeLoops (by simp [raiseBeforeLoops, hhave, hrm, hsve, hrn, hcheck, hmod])
  · rintro m rfl hchecks e r k
    constructor
    · exact fun hfirst => ⟨_, _, exec_firstFault hchecks hfirst, rfl⟩
    · rintro ⟨a, t, habort, -⟩
      obtain ⟨-, hfirst, -⟩ := exec_dataAbort_inv habort
      exact hfirst

/-- A raise of the instruction leaves all but the record of reads. -/
theorem state_of_exec_fault {i : Instr} {f : Fault} (h : exec i s = .fault f) :
    ∃ done, f.state = { s with reads := s.reads ++ done } := by
  obtain ⟨zt, pg, rn, rm⟩ := i
  rcases exec_fault_inv h with ⟨g, hraise, rfl⟩ | ⟨m, -, -, e, r, k, -, rfl⟩
  · exact ⟨[], by rw [state_of_raiseBeforeLoops hraise, List.append_nil]⟩
  · exact ⟨_, rfl⟩

/-- A step that raises does so in the fetch or at decode, with the state as it is, or in the instruction. -/
theorem step_fault_inv {f : Fault} (h : step s = .fault f) : f.state = s ∨ ∃ i, exec i s = .fault f := by
  unfold step at h
  split at h
  · cases h
  · cases h; exact .inl rfl
  · split at h
    · exact .inr ⟨_, h⟩
    · cases h; exact .inl rfl
    · cases h
    · cases h

/-- Settles O18: the raises of the fetch, of decode and of the instruction, and what a data abort adds to the record. -/
theorem raiseLeavesTheStateUnchanged : Obligations.RaiseLeavesTheStateUnchanged := by
  refine ⟨fun s f hstep => ?_, fun zt pg rn m s t a e r k habort => ?_⟩
  · rcases step_fault_inv hstep with hstate | ⟨i, hexec⟩
    · exact ⟨[], by rw [hstate, List.append_nil]⟩
    · exact state_of_exec_fault hexec
  · obtain ⟨-, -, -, ht⟩ := exec_dataAbort_inv habort
    exact ht

end Sys2Proof.Machine
end

section
/-! The effective address, and the bytes that a completing LD4B leaves in its destinations (R84 to R88, R93). -/

namespace Sys2Proof.Machine

variable {zt rn : Fin 32} {pg : Fin 8} {m : Fin 31} {s t : State}

/-- The effective address as additions of 64-bit words (R84, R13). -/
theorem effAddr_eq_add (b x : Word) (e r : Nat) : effAddr b x e r = b + x + BitVec.ofNat 64 (4 * e + r) := by
  apply BitVec.eq_of_toNat_eq
  simp only [toNat_effAddr, BitVec.toNat_add, BitVec.toNat_ofNat]
  omega

@[simp] theorem baseValue_castSucc (s : State) (m : Fin 31) : s.baseValue m.castSucc = s.readX m := by
  simp [State.baseValue]

/-- Settles O29: the closed form as a sum of words, whose laws give the rest. -/
theorem effectiveAddressWraps : Obligations.EffectiveAddressWraps := by
  refine ⟨effAddr_eq_add, fun s m => ?_, fun b e r => ?_, by decide⟩
  · rw [State.addrOf, effAddr_eq_add, baseValue_castSucc, BitVec.two_mul]
    exact BitVec.add_zero _
  · rw [effAddr_eq_add, effAddr_eq_add, BitVec.add_zero, BitVec.sub_eq_add_neg]

/-- Element `e` is active where bit `e` of `P[g]` is 1: a predicate bit for each byte of a vector register (R25). -/
theorem active_eq_getLsbD (s : State) (pg : Fin 8) (e : Nat) : s.active pg e = (s.readP pg).getLsbD e := by
  simp [State.active, elemP, esize]

/-- Settles O14: the four registers written back, element by element, and the others left alone. -/
theorem ld4bCompletesWithDeinterleavedBytes : Obligations.Ld4bCompletesWithDeinterleavedBytes := by
  intro zt pg rn m s hchecks hreadable
  obtain ⟨values, hexec, hvalues⟩ := exec_readable (zt := zt) hchecks hreadable
  refine ⟨writeDests zt values s.z, _, hexec, fun r e he => ?_, fun j hj => ?_⟩
  · rw [Nat.mul_comm, ← active_eq_getLsbD]
    exact (congrArg (elemGet · e 8) (writeDests_dest zt values s.z r)).trans (hvalues r e he)
  · exact writeDests_other zt j values s.z fun r hr => hj r (congrArg Fin.val hr)

/-- Settles O27: byte `k` of the window is the byte at `A(k DIV 4, k MOD 4)`. -/
theorem reinterleavingReproducesMemory : Obligations.ReinterleavingReproducesMemory := by
  intro zt pg rn m s t hexec hactive k hk
  have he : k / 4 < s.cfg.elements := by
    have := elements_mul s
    omega
  have haddr : s.addrOf rn m (k / 4) (Fin.ofNat 4 (k % 4)).val =
      s.baseValue rn + s.readX m + BitVec.ofNat 64 k := by
    rw [State.addrOf, effAddr_eq_add, Fin.val_ofNat, Nat.mod_mod, Nat.div_add_mod]
  rw [zByte_destReg_of_exec_next hexec _ he, if_pos (hactive _ he), haddr]

/-- The first fault is at or before every active byte that cannot be read, in the order of the loops (R106). -/
theorem FirstFault.le {e e' : Nat} {r r' : Fin 4} {k k' : FaultKind} (hfirst : FirstFault pg rn m s e' r' k')
    (hactive : s.active pg e = true) (hfault : s.memFault .normal s.cfg.haveMte (s.addrOf rn m e r) = some k) :
    e' < e ∨ e' = e ∧ r'.val ≤ r.val := by
  obtain ⟨-, -, -, hbefore, hsame⟩ := hfirst
  rcases Nat.lt_trichotomy e' e with hlt | rfl | hgt
  · exact .inl hlt
  · refine .inr ⟨rfl, Nat.le_of_not_lt fun hr => ?_⟩
    cases (hsame r hr).symm.trans hfault
  · cases (hbefore e hgt hactive r r.isLt).symm.trans hfault

/-- Settles O19: a completing LD4B wrote the byte; where the byte cannot be read, the first fault is there or before. -/
theorem activeElementReceivesItsByte : Obligations.ActiveElementReceivesItsByte := by
  refine fun zt pg rn m s e he hactive r => ⟨fun t hexec => ?_, fun k hchecks hfault => ?_⟩
  · exact (zByte_destReg_of_exec_next hexec r he).trans (if_pos hactive)
  · rcases readable_or_firstFault pg rn m s with hreadable | ⟨e', r', k', hfirst⟩
    · cases (hreadable e he hactive r r.isLt).symm.trans hfault
    · exact ⟨_, e', r', k', _, exec_firstFault hchecks hfirst, hfirst.le hactive hfault⟩

end Sys2Proof.Machine
end

section
/-! Inactive elements: zero, and not read (R87, R93). -/

namespace Sys2Proof.Machine

variable {zt rn : Fin 32} {pg : Fin 8} {m : Fin 31} {s t : State}

/-- Of the elements below `n`, the bytes read are those of the active ones. -/
theorem addrOf_mem_activeAddrs_iff {n e r : Nat} (hn : n ≤ s.cfg.elements) (he : e < s.cfg.elements) (hr : r < 4) :
    s.addrOf rn m e r ∈ s.activeAddrs pg rn m n ↔ e < n ∧ s.active pg e = true := by
  rw [mem_activeAddrs]
  constructor
  · rintro ⟨e', he', hactive, r', hr', heq⟩
    obtain ⟨rfl, -⟩ := addrOf_injective he hr (he'.trans_le hn) hr' heq
    exact ⟨he', hactive⟩
  · rintro ⟨hlt, hactive⟩
    exact ⟨e, hlt, hactive, r, hr, rfl⟩

/-- Settles O20: distinct bytes have distinct addresses, so an inactive element's are neither read nor aborted at. -/
theorem inactiveElementIsZeroedUnread : Obligations.InactiveElementIsZeroedUnread := by
  refine fun zt pg rn m s e he => ⟨fun t hexec => ⟨fun hinactive r => ?_, ?_⟩, fun a e' r' k t habort hinactive => ?_⟩
  · rw [zByte_destReg_of_exec_next hexec r he, hinactive]
    rfl
  · refine ⟨_, reads_of_exec_next hexec, fun r hr => ?_⟩
    simp only [addrOf_mem_activeAddrs_iff le_rfl he hr, he, true_and]
  · obtain ⟨-, ⟨he', hactive, -⟩, rfl, rfl⟩ := exec_dataAbort_inv habort
    have hne : e' ≠ e := by
      rintro rfl
      exact absurd hactive (by simp [hinactive])
    have haddr {i j : Nat} (hi : i < 4) (hj : j < 4) : s.addrOf rn m e' i ≠ s.addrOf rn m e j := fun heq =>
      hne (addrOf_injective he' hi he hj heq).1
    refine ⟨hne, _, rfl, fun r hr => ⟨haddr r'.isLt hr, fun hmem => ?_⟩⟩
    rcases List.mem_append.1 hmem with hbefore | hhere
    · simp [addrOf_mem_activeAddrs_iff he'.le he hr, hinactive] at hbefore
    · obtain ⟨i, hi, heq⟩ := List.mem_map.1 hhere
      exact haddr ((List.mem_range.1 hi).trans r'.isLt) hr heq

/-- Without active elements no byte is read. -/
theorem activeAddrs_eq_nil (h : ∀ e, s.active pg e = false) (rn : Fin 32) (m : Fin 31) (n : Nat) :
    s.activeAddrs pg rn m n = [] := by
  simp [State.activeAddrs, h]

/-- Without active elements nothing can fault, nothing is read, and four zero vectors are written back. -/
theorem exec_of_no_active (zt : Fin 32) (m : Fin 31) (hchecks : ChecksPass rn s) (hinactive : ∀ e, s.active pg e = false) :
    exec (.ld4b zt pg rn m.castSucc) s =
      .next { s with z := writeDests zt (Vector.replicate 4 0) s.z, pc := s.pc + 4#64 } := by
  have hreadable : ActiveBytesReadable pg rn m s := fun e _ hactive => absurd hactive (by simp [hinactive])
  have hvalues (r : Fin 4) (e : Nat) (_ : e < s.cfg.elements) :
      elemGet (Vector.replicate 4 (0 : BitVec s.cfg.VL))[r] e 8 =
        if s.active pg e then s.memByte (s.addrOf rn m e r) else 0 := by
    simp [hinactive, elemGet]
  have hexec := exec_of_other_vectors (zt := zt) hchecks hreadable hvalues s.z
  rwa [activeAddrs_eq_nil hinactive, List.append_nil] at hexec

/-- Settles O21: an all-zero predicate makes no element active, whatever the fault map and the Device map are. -/
theorem noActiveElementReadsNothing : Obligations.NoActiveElementReadsNothing := by
  intro zt pg rn m s faults devices hchecks hzero
  have hinactive (e : Nat) : s.active pg e = false := by
    rw [active_eq_getLsbD, hzero]
    exact BitVec.getLsbD_zero
  have hexec := exec_of_no_active (s := { s with faultMap := faults, deviceMap := devices }) zt m hchecks hinactive
  refine ⟨_, hexec, fun r => ?_, fun j hj => writeDests_other zt j _ s.z hj⟩
  exact (writeDests_dest zt _ s.z r).trans (by simp)

end Sys2Proof.Machine
end

section
/-! The predicates: none is written, and of them the governing one alone is read (R91). -/

namespace Sys2Proof.Machine

variable {zt rn : Fin 32} {pg : Fin 8} {m : Fin 31} {s : State} {p : Vector (BitVec s.cfg.PL) 16}

/-- The active elements are those of the governing predicate, whatever the others hold. -/
theorem active_of_other_predicates (h : p[pg.val] = s.p[pg.val]) : State.active { s with p := p } pg = s.active pg := by
  funext e
  simp only [State.active, State.readP, h]

theorem activeAddrs_of_other_predicates (h : p[pg.val] = s.p[pg.val]) (rn : Fin 32) (m : Fin 31) (n : Nat) :
    State.activeAddrs { s with p := p } pg rn m n = s.activeAddrs pg rn m n := by
  simp only [State.activeAddrs, active_of_other_predicates h]
  rfl

theorem readable_of_other_predicates (h : p[pg.val] = s.p[pg.val]) (hreadable : ActiveBytesReadable pg rn m s) :
    ActiveBytesReadable pg rn m { s with p := p } := by
  intro e he hactive
  rw [active_of_other_predicates h] at hactive
  exact hreadable e he hactive

theorem firstFault_of_other_predicates (h : p[pg.val] = s.p[pg.val]) {e : Nat} {r : Fin 4} {k : FaultKind}
    (hfirst : FirstFault pg rn m s e r k) : FirstFault pg rn m { s with p := p } e r k := by
  obtain ⟨he, hactive, hfault, hbefore, hsame⟩ := hfirst
  rw [← active_of_other_predicates h] at hactive hbefore
  exact ⟨he, hactive, hfault, hbefore, hsame⟩

/-- Settles O37: the raises before the loops look at no predicate, and the loops only at which elements are active. -/
theorem noPredicateWrittenOnlyTheGoverningOneRead : Obligations.NoPredicateWrittenOnlyTheGoverningOneRead := by
  refine fun zt pg rn rm s => ⟨fun t hexec => ?_, fun f hexec => ?_⟩
  · obtain ⟨m, rfl, hchecks, hreadable, values, rfl, hvalues⟩ := exec_next_inv hexec
    refine ⟨_, _, _, rfl, fun p hp => ?_⟩
    rw [← activeAddrs_of_other_predicates hp]
    refine exec_of_other_vectors (s := { s with p := p }) hchecks (readable_of_other_predicates hp hreadable) ?_ s.z
    rw [active_of_other_predicates hp]
    exact hvalues
  · rcases exec_fault_inv hexec with ⟨g, hraise, rfl⟩ | ⟨m, rfl, hchecks, e, r, k, hfirst, rfl⟩
    · refine ⟨fun _ _ => by rw [state_of_raiseBeforeLoops hraise], fun p _ => ⟨{ s with p := p }, ?_, fun _ _ => rfl⟩⟩
      rw [withState_of_raiseBeforeLoops hraise]
      exact exec_of_raiseBeforeLoops (s := { s with p := p }) hraise
    · refine ⟨fun _ _ => rfl, fun p hp => ?_⟩
      have habort := exec_firstFault (zt := zt) (s := { s with p := p }) hchecks (firstFault_of_other_predicates hp hfirst)
      exact ⟨_, habort, fun _ _ => rfl⟩

end Sys2Proof.Machine
end
